-- ==== Sys2Proof/Word.lean ====
section
/-! DEFINITION. The word types of the machine (00_scope.md R13, R14; 10_state.md R20, R29). -/

namespace Sys2Proof

/-- `bits(8)`, the unit of addressing (R29). -/
abbrev Byte := BitVec 8

/-- `bits(64)`: register contents, addresses and sizes (R20, R40). Addition, subtraction and negation are
modulo 2^64 and set no flag (R14; PRESUMED there as general knowledge G5, log entry 25). -/
abbrev Word := BitVec 64

/-- The number of a general register X0 to X30 (R20); number 31 names no register here (R21). -/
abbrev RegNum := Fin 31

end Sys2Proof
end

