-- ==== Sys2Proof/Syntax.lean ====
section
/-! DEFINITION. The instructions of spec/opcode_table.json, one constructor per row, with the fields that
the decode step assembles from the word (30_encoding.md R61, R62, R63). -/

namespace Sys2Proof

/-- An instruction word that matches a row of R63. `sz` is bits 31:30, `op2` (the pseudocode's `options`)
bits 15:12, `rs` bits 20:16, `rn` bits 9:5, `rd` bits 4:0. A word with `sz` other than `00` still matches
its row (R63); what becomes of it is the instruction's meaning (R64). -/
inductive Instr where
  /-- `CPYFP [<Xd>]!, [<Xs>]!, <Xn>!`, Memory Copy Forward-only, prologue (R84). -/
  | cpyfp (sz : BitVec 2) (op2 : BitVec 4) (rs rn rd : BitVec 5)
  /-- `CPYFM [<Xd>]!, [<Xs>]!, <Xn>!`, Memory Copy Forward-only, main (R85). -/
  | cpyfm (sz : BitVec 2) (op2 : BitVec 4) (rs rn rd : BitVec 5)
  /-- `CPYFE [<Xd>]!, [<Xs>]!, <Xn>!`, Memory Copy Forward-only, epilogue (R86). -/
  | cpyfe (sz : BitVec 2) (op2 : BitVec 4) (rs rn rd : BitVec 5)
deriving DecidableEq, Repr

end Sys2Proof
end

