-- ==== Sys2Proof/WellFormed.lean ====
section
/-! DEFINITION. Which terms of `Instr` are instructions of this hardware. -/

namespace Sys2Proof

/-- The encodings in scope have `op2 == '0000'` (30_encoding.md R66, 00_scope.md R2); every value of `sz`
and of the three register fields occurs in a word that matches a row (R63). -/
def Instr.wf : Instr → Bool
  | .cpyfp _ op2 _ _ _ => op2 == 0#4
  | .cpyfm _ op2 _ _ _ => op2 == 0#4
  | .cpyfe _ op2 _ _ _ => op2 == 0#4

end Sys2Proof
end

