-- ==== Sys2Proof/Decode.lean ====
section
/-! DEFINITION. From instruction words and bytes to instructions and back (30_encoding.md R60 to R67).
The bit positions are those of R61, which the spec marks as general knowledge G11 (log entry 14). -/

namespace Sys2Proof

/-- Why bytes are no instruction of this hardware. Each is a refusal and no fault: the spec gives such a
word no meaning. -/
inductive DecodeError where
  /-- Fewer than the four bytes of a word (R60). -/
  | tooShort
  /-- Some constant bit of R61 differs: no row of the opcode table (70_reset_and_hazards.md R167). -/
  | notInTable
  /-- `op2 != '0000'` (R66). -/
  | optionsNotInSource
  /-- `op1 == '11'`: `SEE "Memory Copy and Memory Set"` (R65). -/
  | seeMemoryCopyAndMemorySet
deriving DecidableEq, Repr

/-- The mask of R63: every bit except `sz`, `Rs`, `Rn`, `Rd`. -/
def rowMask : BitVec 32 := 0x3FE0FC00#32

/-- The value of a row of R63 under `rowMask`. -/
def Instr.rowMatch : Instr → BitVec 32
  | .cpyfp _ _ _ _ _ => 0x19000400#32
  | .cpyfm _ _ _ _ _ => 0x19400400#32
  | .cpyfe _ _ _ _ _ => 0x19800400#32

/-- The constant bits of R61 other than `op2`: 011001 at 29:24, 0 at 21, 01 at 11:10. -/
def constantBitsOk (w : BitVec 32) : Bool :=
  w.extractLsb' 24 6 == 0b011001#6 && w.extractLsb' 21 1 == 0#1 && w.extractLsb' 10 2 == 0b01#2

/-- The operands of R62 given to the constructor that `op1` selects. -/
def decodeFields (w : BitVec 32) (row : BitVec 2 → BitVec 4 → BitVec 5 → BitVec 5 → BitVec 5 → Instr) : Instr :=
  row (w.extractLsb' 30 2) (w.extractLsb' 12 4) (w.extractLsb' 16 5) (w.extractLsb' 5 5) (w.extractLsb' 0 5)

/-- Decoding of one 32-bit word (R61 to R66). -/
def decodeWord (w : BitVec 32) : Except DecodeError Instr :=
  if !constantBitsOk w then .error .notInTable
  else if w.extractLsb' 12 4 ≠ 0#4 then .error .optionsNotInSource
  else if w.extractLsb' 22 2 = 0b00#2 then .ok (decodeFields w .cpyfp)
  else if w.extractLsb' 22 2 = 0b01#2 then .ok (decodeFields w .cpyfm)
  else if w.extractLsb' 22 2 = 0b10#2 then .ok (decodeFields w .cpyfe)
  else .error .seeMemoryCopyAndMemorySet

/-- The word whose four bytes stand at ascending addresses: the lowest address holds bits 7:0 (R60). -/
def wordOfBytes (b0 b1 b2 b3 : Byte) : BitVec 32 := b3 ++ b2 ++ b1 ++ b0

/-- The four bytes of a word, lowest address first (R60). -/
def bytesOfWord (w : BitVec 32) : List Byte :=
  [w.extractLsb' 0 8, w.extractLsb' 8 8, w.extractLsb' 16 8, w.extractLsb' 24 8]

/-- Decoding of the bytes at the program counter: the instruction and the bytes after it. -/
def decode : List Byte → Except DecodeError (Instr × List Byte)
  | b0 :: b1 :: b2 :: b3 :: rest => (decodeWord (wordOfBytes b0 b1 b2 b3)).map (fun i => (i, rest))
  | _ => .error .tooShort

/-- The word with the given `op1` and fields, from the table of R61. -/
def packWord (op1 : BitVec 2) (sz : BitVec 2) (op2 : BitVec 4) (rs rn rd : BitVec 5) : BitVec 32 :=
  sz ++ 0b011001#6 ++ op1 ++ 0#1 ++ rs ++ op2 ++ 0b01#2 ++ rn ++ rd

/-- The word of an instruction (R61, R63). -/
def encodeWord : Instr → BitVec 32
  | .cpyfp sz op2 rs rn rd => packWord 0b00#2 sz op2 rs rn rd
  | .cpyfm sz op2 rs rn rd => packWord 0b01#2 sz op2 rs rn rd
  | .cpyfe sz op2 rs rn rd => packWord 0b10#2 sz op2 rs rn rd

/-- The bytes of an instruction as they stand in the program text. -/
def encode (i : Instr) : List Byte := bytesOfWord (encodeWord i)

/-- The word that the opcode table's numbering gives: the low `nbits` bits of `w`, zeros above. -/
def tableWord (nbits w : Nat) : BitVec 32 := BitVec.ofNat 32 (w % 2 ^ nbits)

/-- What the decoder reads from an instruction whose bits are `w`, as spec/opcode_table.json numbers them. -/
def decodeTableWord (nbits w : Nat) : Option Instr :=
  match decode (bytesOfWord (tableWord nbits w)) with
  | .ok (i, _) => some i
  | .error _ => none

end Sys2Proof
end

