-- ==== Sys2Proof/Config.lean ====
section
/-! DEFINITION. What an implementation fixes (configuration) and what it chooses afresh at each use (draws),
00_scope.md R4 to R12. The values stand in `State`, so that every statement about a step holds for all of
them (10_state.md R31: they are inputs of the step relation; log entries 5 and 8). -/

namespace Sys2Proof

/-- The quantities fixed for one machine: configuration (R4, R7, R12). -/
structure HwConfig where
  /-- `HAVE_MOPS`, the answer of `HaveFeatMOPS()` (R4). -/
  haveMops : Bool
  /-- `N`, the answer of `MaxBlockSizeCopiedBytes()` (R7); read through `HwConfig.blockLimit`. -/
  maxBlock : Nat
  /-- `EL2_ENABLED`, the answer of `EL2Enabled()` (R12). -/
  el2Enabled : Bool
  /-- `HAVE_NV`, the answer of `HaveNVExt()` (R12). -/
  haveNv : Bool
  /-- `HAVE_VHE`, the answer of `HaveVirtHostExt()` (R12). -/
  haveVhe : Bool
  /-- `HAVE_UAO`, the answer of `HaveUAOExt()` (R12). -/
  haveUao : Bool
deriving DecidableEq, Repr

/-- `N >= 1` (R7). A configuration that says 0, which no machine has, reads as 1 (DESIGN CHOICE, safe, log
entry 9). -/
def HwConfig.blockLimit (c : HwConfig) : Nat := max 1 c.maxBlock

/-- The two answers of `ConstrainUnpredictable(Unpredictable_MOPSOVERLAP31)` (R11). -/
inductive Overlap31 where
  | undef
  | nop
deriving DecidableEq, Repr, Inhabited

/-- The draws of one executed instruction. Each is free; where R89 constrains a draw, the machine reads it
through the function named, which answers exactly the admissible values (log entry 6). -/
structure Draws where
  /-- `OVERLAP31` (R11). -/
  overlap31 : Overlap31
  /-- `OPTION_A` (R6). -/
  optionA : Bool
  /-- `ZERO_SIZE_CHECK` (R9). -/
  zeroSizeCheck : Bool
  /-- `ILLFORMED_M` (R10), read through `illformed`. -/
  illformedM : Bool
  /-- `ILLFORMED_E` (R10), read through `illformed`. -/
  illformedE : Bool
  /-- `PRE_SIZE` (R8), read through `preSize`. -/
  preSize : Word
  /-- `POST_SIZE` (R8), read through `postSize`. -/
  postSize : Word
  /-- `BLOCK_SIZE` of the first block, the second, and so on (R8), read through `blockSize`; blocks after
  these draw `Config.freeBlock`. -/
  blocks : List Nat
deriving DecidableEq, Repr, Inhabited

/-- FREE VALUE: the draws of the instruction that executes after `k` others have completed, where the
state's own list of draws has come to its end. Nothing constrains it (log entry 5). -/
opaque Config.freeDraws : (k : Nat) → Draws

/-- FREE VALUE: the `BLOCK_SIZE` draw of block `i` of that instruction where its draws list no more blocks
(log entry 5). -/
opaque Config.freeBlock : (k i : Nat) → Nat

end Sys2Proof
end

