-- ==== Sys2Proof/Machine/State.lean ====
section
/-! DEFINITION. The state of the machine, the faults it records, the refusals of the model, and the state
that stands for reset (10_state.md R20 to R32; 60_exceptions.md R130 to R135). -/

namespace Sys2Proof.Machine

/-- The Exception levels, values of PSTATE.EL (R24). -/
inductive EL where
  | el0
  | el1
  | el2
  | el3
deriving DecidableEq, Repr

/-- The condition flags PSTATE.N, Z, C, V, one bit each (R23). -/
structure Flags where
  n : Bool
  z : Bool
  c : Bool
  v : Bool
deriving DecidableEq, Repr

/-- The four one-bit fields of HCR_EL2 that the source names (R26). -/
structure HcrEl2 where
  nv : Bool
  nv1 : Bool
  e2h : Bool
  tge : Bool
deriving DecidableEq, Repr

/-- The direction of an access (R19). -/
inductive MemOp where
  | load
  | store
deriving DecidableEq, Repr

/-- An access descriptor, what `CreateAccDescMOPS` builds (R46). -/
structure AccDesc where
  op : MemOp
  privileged : Bool
  nontemporal : Bool
  mops : Bool
deriving DecidableEq, Repr

/-- What the platform says of an access that fails. The spec leaves the content abstract (R47, R133;
DESIGN CHOICE, log entry 27). -/
inductive FaultInfo where
  /-- The access does not lie in a range declared for its direction and privilege (R47). -/
  | notDeclared
  /-- The platform faults this access for a reason of its own, whose code it names (R44, R47). -/
  | platform (code : Nat)
deriving DecidableEq, Repr

/-- A byte range that the launch declares, with its rights at each privilege (R47). -/
structure Region where
  base : Nat
  size : Nat
  privRead : Bool
  privWrite : Bool
  unprivRead : Bool
  unprivWrite : Bool
deriving DecidableEq, Repr

/-- Memory, and the program text: (address, byte) pairs. -/
abbrev Memory := List Host.Cell

/-- One answer of the platform's `MemFault` that differs from what the declared ranges give: for one access, in
the states of the memory system that it names (R47; log entry 10). -/
structure PlatformAnswer where
  /-- The number of accesses performed before this one; `none`: any number. -/
  performed : Option Nat
  /-- Bytes that data memory holds when the answer applies. -/
  holding : Memory
  addr : Word
  n : Nat
  acc : AccDesc
  /-- `none` admits the access, `some f` faults it. -/
  answer : Option FaultInfo
deriving DecidableEq, Repr

/-- The platform's `MemFault` as plain data: the conservative model of declared ranges, and answers that differ
from it (R47, R160 (L5); log entry 10). -/
structure Platform where
  regions : List Region
  answers : List PlatformAnswer
deriving DecidableEq, Repr

/-- The four cases of `Undefined` (R131). -/
inductive UndefCase where
  /-- Case 1: `HAVE_MOPS` is FALSE. -/
  | noFeature
  /-- Case 2: `sz != '00'`. -/
  | sizeField
  /-- Case 3: `MOPS_ENABLED` is FALSE. -/
  | notEnabled
  /-- Case 4: the register-number test holds and `OVERLAP31` draws `UNDEF`. -/
  | registers
deriving DecidableEq, Repr

/-- The seven arguments of `MismatchedMemCpyException` (R132). -/
structure MismatchRecord where
  optionA : Bool
  destreg : RegNum
  srcreg : RegNum
  sizereg : RegNum
  wrongOption : Bool
  fromEpilogue : Bool
  options : BitVec 4
deriving DecidableEq, Repr

/-- The exceptions of R130. An instruction that raises one records it in `State.fault`, which is how the
exception is taken (R135); the step after that stops with it, since a faulted state has no further step
(93_implementation_defined.md I21). -/
inductive Fault where
  /-- `Undefined` (R131). Raised by CPYFP, CPYFM and CPYFE before any state is read or written. Safe: the
  spec's own outcome, after which the machine goes no further. -/
  | undefined (case : UndefCase)
  /-- `MemCopyMismatch` (R132). Raised by CPYFM and CPYFE before their first access. Safe: as above. -/
  | memCopyMismatch (record : MismatchRecord)
  /-- `MemoryFault` (R133). Raised by a read or write of a copy loop; `addr` is the lowest address of the
  block. Safe: as above; what memory and registers hold then is R90's. -/
  | memoryFault (info : FaultInfo) (addr : Word) (n : Nat) (acc : AccDesc)
deriving DecidableEq, Repr

/-- Why the model declines to answer (R130, R167 (b)). -/
inductive Refusal where
  /-- An instruction without a meaning yet; no arm answers it. Safe: the model stops. -/
  | notModelled (mnemonic : String)
  /-- `pc` is not a multiple of 4; raised by the fetch. The spec refuses it (R22, D5). Safe. -/
  | pcMisaligned
  /-- `pc + 4` would wrap; raised by the fetch. The spec refuses it (R22, N8). Safe. -/
  | pcAtTopOfAddressSpace
  /-- The program text is not defined at `pc .. pc+3`; raised by the fetch (R160 (L2), R167). Safe. -/
  | noProgramText
  /-- The word at `pc` is no row of the opcode table; raised by the fetch (R167 (b)). Safe. -/
  | notInOpcodeTable
  /-- `op2 != '0000'`; raised by the fetch (R66, D16). Safe. -/
  | optionsNotInSource
  /-- `op1 == '11'`, `SEE "Memory Copy and Memory Set"`; raised by the fetch (R65, D16). Safe. -/
  | seeMemoryCopyAndMemorySet
  /-- A block's destination meets the program text; raised by a write of a copy loop (R54, R160 (L3), D20).
  Safe. -/
  | destinationInProgramText
deriving DecidableEq, Repr

/-- The state of R31 with UAO and the HCR_EL2 fields (R25, R26), the recorded fault (R160 (L1)), the program
text (R160 (L2)), the parameters of the step relation (R4 to R12, R47), and the model's own record of the
draws to come. -/
structure State where
  /-- X0 to X30 (R20). -/
  x : Vector Word 31
  /-- PSTATE.N, Z, C, V (R23). -/
  flags : Flags
  /-- PSTATE.EL (R24). -/
  el : EL
  /-- PSTATE.UAO (R25). -/
  uao : Bool
  /-- HCR_EL2.NV, NV1, E2H, TGE (R26). -/
  hcr : HcrEl2
  /-- The program counter (R22). -/
  pc : Word
  /-- Data memory (R29). -/
  mem : Memory
  /-- The program text, which no instruction writes (R31, R54, D20). -/
  text : Memory
  /-- The recorded fault, never cleared (R135, R160 (L1)). -/
  fault : Option Fault
  /-- The configuration (R4, R7, R12). -/
  cfg : HwConfig
  /-- `MOPS_ENABLED`, evaluated on the launch state (R5, R160 (L4)); no instruction writes it (log entry 7). -/
  mopsEnabled : Bool
  /-- The platform's answer to accesses (R47). -/
  platform : Platform
  /-- The part of the memory system's state that is not its bytes: how many accesses it has performed (R47; log
  entry 10). -/
  performed : Nat
  /-- MODEL'S OWN: the draws of the instructions to come, the next one's first (R31; log entry 5). -/
  draws : List Draws
  /-- MODEL'S OWN: how many instructions have completed, the argument of the free draws (log entry 5). -/
  drawn : Nat
deriving DecidableEq, Repr

/-- DESIGN CHOICE: the configuration at reset, 92_eei_decisions.md D15 and D27's reference values where they
name one (log entry 8). -/
def HwConfig.atReset : HwConfig :=
  { haveMops := true, maxBlock := 16, el2Enabled := true, haveNv := true, haveVhe := true, haveUao := true }

/-- DESIGN CHOICE: the draws of the first instruction after reset, D27's reference values where they name one
(log entry 5). No statement rests on them. -/
def Draws.atReset : Draws :=
  { overlap31 := .nop, optionA := true, zeroSizeCheck := false, illformedM := false,
    illformedE := false, preSize := 0#64, postSize := 0#64, blocks := [] }

/-- DESIGN CHOICE: at reset every access is admitted, D27's reference answer of `MemFault` (log entry 10). -/
def Platform.atReset : Platform :=
  { regions := [{ base := 0, size := 2 ^ 64, privRead := true, privWrite := true, unprivRead := true,
                  unprivWrite := true }],
    answers := [] }

/-- The state that stands for reset. The spec defines no reset (R32, D17): every value here is a DESIGN
CHOICE (log entries 2, 3, 4, 5, 7, 8, 10) but `fault`, which is the launch premise R160 (L1). -/
def State.reset : State :=
  { x := Vector.replicate 31 0#64
    flags := { n := false, z := false, c := false, v := false }
    el := .el1
    uao := false
    hcr := { nv := false, nv1 := false, e2h := false, tge := false }
    pc := 0#64
    mem := []
    text := []
    fault := none
    cfg := HwConfig.atReset
    mopsEnabled := true
    platform := Platform.atReset
    performed := 0
    draws := [Draws.atReset]
    drawn := 0 }

end Sys2Proof.Machine
end

