-- ==== Sys2Proof/Machine/Ops.lean ====
section
/-! DEFINITION. The named operations over registers, memory and the program text; completing an instruction
and taking an exception (10_state.md R20 to R22; 20_memory.md R41, R42, R47; 60_exceptions.md R135). -/

namespace Sys2Proof.Machine

/-! ### Lists of cells -/

/-- The byte listed at an address. -/
def Memory.find : Memory → Nat → Option Byte
  | [], _ => none
  | (k, v) :: rest, a => if a = k then some v else Memory.find rest a

/-- The list with `v` at `a`, kept in rising order. -/
def Memory.insert : Memory → Nat → Byte → Memory
  | [], a, v => [(a, v)]
  | (k, w) :: rest, a, v =>
    if a < k then (a, v) :: (k, w) :: rest
    else if a = k then (a, v) :: rest
    else (k, w) :: Memory.insert rest a v

/-- The list with nothing at `a`. -/
def Memory.erase : Memory → Nat → Memory
  | [], _ => []
  | (k, w) :: rest, a => if a = k then Memory.erase rest a else (k, w) :: Memory.erase rest a

/-- Every address of the list lies above `lo`. -/
def Memory.above (lo : Nat) : Memory → Bool
  | [] => true
  | (k, _) :: rest => decide (lo < k) && Memory.above lo rest

/-- Addresses strictly rising and below 2^64. -/
def Memory.ordered : Memory → Bool
  | [] => true
  | (k, _) :: rest => decide (k < 2 ^ 64) && Memory.above k rest && Memory.ordered rest

/-! ### Data memory -/

/-- What a byte that nothing has written reads as. The spec leaves memory unconstrained at launch (R29,
R32): DESIGN CHOICE, unsafe, log entry 3. -/
def Memory.unlisted : Byte := 0#8

/-- The byte of data memory at an address (R29). -/
def Memory.read (m : Memory) (a : Nat) : Byte := (m.find a).getD Memory.unlisted

/-- Data memory with `v` at `a`. -/
def Memory.write (m : Memory) (a : Nat) (v : Byte) : Memory :=
  if v = Memory.unlisted then m.erase a else m.insert a v

/-- No entry equals what an unlisted address reads as. -/
def Memory.noDefaults : Memory → Bool
  | [] => true
  | (_, v) :: rest => decide (v ≠ Memory.unlisted) && Memory.noDefaults rest

/-- The canonical form of data memory. -/
def Memory.wf (m : Memory) : Bool := m.ordered && m.noDefaults

/-- The address of byte `i` of an access at `addr`, modulo 2^64 (R40, R41). -/
def byteAddr (addr : Word) (i : Nat) : Nat := (addr + BitVec.ofNat 64 i).toNat

/-- The `n` bytes at ascending addresses from `addr` (R41). The list holds byte `i` of `bits(8*n)` at
position `i` (log entry 13). -/
def Memory.readBlock (m : Memory) (addr : Word) (n : Nat) : List Byte :=
  (List.range n).map (fun i => m.read (byteAddr addr i))

/-- Memory after the bytes of `v` are written at ascending addresses from `addr` (R42). -/
def Memory.writeBlock (m : Memory) (addr : Word) : List Byte → Memory
  | [] => m
  | b :: rest => Memory.writeBlock (m.write addr.toNat b) (addr + 1#64) rest

/-- The state with `m` as its data memory. -/
def State.setMem (s : State) (m : Memory) : State := { s with mem := m }

/-- The byte of data memory that address `a` names. -/
def State.byte (s : State) (a : Word) : Byte := s.mem.read a.toNat

/-! ### Memory faults: the platform answers before every access -/

/-- The region's right to an access at the descriptor's privilege (R47). -/
def Region.permits (r : Region) (acc : AccDesc) : Bool :=
  match acc.op, acc.privileged with
  | .load, true => r.privRead
  | .store, true => r.privWrite
  | .load, false => r.unprivRead
  | .store, false => r.unprivWrite

/-- All `n` bytes of the access lie in the region (R47). -/
def Region.covers (r : Region) (addr : Word) (n : Nat) : Bool :=
  (List.range n).all (fun i => decide (r.base ≤ byteAddr addr i) && decide (byteAddr addr i < r.base + r.size))

/-- Some declared region holds the whole access and permits it (R47). -/
def Platform.admits (p : Platform) (addr : Word) (n : Nat) (acc : AccDesc) : Bool :=
  p.regions.any (fun r => r.permits acc && r.covers addr n)

/-- The answer is for this access, in this state of the memory system: its bytes, and how many accesses it has
performed. -/
def PlatformAnswer.applies (e : PlatformAnswer) (m : Memory) (performed : Nat) (addr : Word) (n : Nat)
    (acc : AccDesc) : Bool :=
  decide (e.addr = addr ∧ e.n = n ∧ e.acc = acc) && decide (e.performed.getD performed = performed)
    && e.holding.all (fun c => decide (m.read c.1 = c.2))

/-- `MemFault(mem-system state, addr, n, acc)` (R47): the first answer that applies, else the conservative model
of declared ranges (log entry 10). -/
def Platform.memFault (p : Platform) (m : Memory) (performed : Nat) (addr : Word) (n : Nat) (acc : AccDesc) :
    Option FaultInfo :=
  match p.answers.find? (fun e => e.applies m performed addr n acc) with
  | some e => e.answer
  | none => if p.admits addr n acc then none else some .notDeclared

/-- `MemFault` as the state `s` has it answered. -/
def State.memFault (s : State) (addr : Word) (n : Nat) (acc : AccDesc) : Option FaultInfo :=
  s.platform.memFault s.mem s.performed addr n acc

/-- The memory system has performed one more access (R47). -/
def State.access (s : State) : State := { s with performed := s.performed + 1 }

/-! ### Registers -/

/-- `X[i]` (R15, R20). -/
def State.readX (s : State) (i : RegNum) : Word := s.x.get i

/-- `X[i] <- v` (R15, R20). -/
def State.writeX (s : State) (i : RegNum) (v : Word) : State := { s with x := s.x.set i.val v i.isLt }

/-! ### Draws -/

/-- The draws of the instruction that executes in `s` (R31; log entry 5). -/
def State.now (s : State) : Draws := s.draws.headD (Config.freeDraws s.drawn)

/-- The raw `BLOCK_SIZE` draw of block `i` of the instruction that executes in `s` (R8). -/
def State.rawBlock (s : State) (i : Nat) : Nat := (s.now.blocks[i]?).getD (Config.freeBlock s.drawn i)

/-! ### Ends of an instruction -/

/-- Completion: `pc <- pc + 4` modulo 2^64 (R22, R92). The next instruction has draws of its own. -/
def State.complete (s : State) : State :=
  { s with pc := s.pc + 4#64, draws := s.draws.tail, drawn := s.drawn + 1 }

/-- Taking an exception: the outcome is recorded, everything else stays, `pc` with it (R15, R90, R135). The
spec describes no entry into a handler (R135) and no return (R136), so there is no operation for a return. -/
def State.raise (s : State) (f : Fault) : State := { s with fault := some f }

/-- How a part of an instruction ends: it goes on, with a state and a result, or it ends the instruction. -/
inductive Flow (α : Type) where
  | done (s : State) (a : α)
  | ended (o : Host.Outcome State Fault Refusal)

/-! ### Reads and writes of memory -/

/-- `MemRead(addr, n, acc)` (R41), going on with the bytes, or raising `MemoryFault` (R133): an access that
faults is not performed (R47). -/
def memRead (s : State) (addr : Word) (n : Nat) (acc : AccDesc) : Flow (List Byte) :=
  match s.memFault addr n acc with
  | some f => .ended (.next (s.raise (.memoryFault f addr n acc)))
  | none => .done s.access (s.mem.readBlock addr n)

/-- Some byte of the access lies in the program text. -/
def Memory.meets (text : Memory) (addr : Word) (n : Nat) : Bool :=
  (List.range n).any (fun i => (text.find (byteAddr addr i)).isSome)

/-- `MemWrite(addr, n, acc, v)` with `n` the number of bytes of `v` (R42): a faulting write changes no byte.
A write that meets the program text is refused (R54, R160 (L3); log entry 16). -/
def memWrite (s : State) (addr : Word) (acc : AccDesc) (v : List Byte) : Flow Unit :=
  match s.memFault addr v.length acc with
  | some f => .ended (.next (s.raise (.memoryFault f addr v.length acc)))
  | none =>
    if s.text.meets addr v.length then .ended (.refused .destinationInProgramText)
    else .done (s.setMem (s.mem.writeBlock addr v)).access ()

/-! ### Instruction fetch -/

/-- The four bytes of the instruction at `pc`, or why there is none (R22, R60, R160 (L2)). -/
def State.fetch (s : State) : Except Refusal (List Byte) :=
  if s.pc.extractLsb' 0 2 ≠ 0#2 then .error .pcMisaligned
  else if s.pc = 0xFFFFFFFFFFFFFFFC#64 then .error .pcAtTopOfAddressSpace
  else
    match s.text.find (byteAddr s.pc 0), s.text.find (byteAddr s.pc 1), s.text.find (byteAddr s.pc 2),
      s.text.find (byteAddr s.pc 3) with
    | some b0, some b1, some b2, some b3 => .ok [b0, b1, b2, b3]
    | _, _, _, _ => .error .noProgramText

/-- The model's refusal of bytes that are no instruction (R65, R66, R167). -/
def DecodeError.refusal : DecodeError → Refusal
  | .tooShort => .noProgramText
  | .notInTable => .notInOpcodeTable
  | .optionsNotInSource => .optionsNotInSource
  | .seeMemoryCopyAndMemorySet => .seeMemoryCopyAndMemorySet

/-- The instruction at `pc`: fetched and decoded. -/
def State.nextInstr (s : State) : Except Refusal Instr :=
  match s.fetch with
  | .error r => .error r
  | .ok bytes =>
    match decode bytes with
    | .error e => .error (DecodeError.refusal e)
    | .ok (i, _) => .ok i

/-- The program text with the given bytes at ascending addresses from `addr`. -/
def Memory.placeText (text : Memory) (addr : Word) : List Byte → Memory
  | [] => text
  | b :: rest => Memory.placeText (text.insert addr.toNat b) (addr + 1#64) rest

end Sys2Proof.Machine
end

