-- ==== Sys2Proof/Machine/Flags.lean ====
section
/-! DEFINITION. PSTATE.<N,Z,C,V> as a four-bit string (00_scope.md R13; 10_state.md R23). No flag is a result
of the arithmetic of these instructions (R91, R95); CPYFP writes one of two literals. -/

namespace Sys2Proof.Machine

/-- `PSTATE.<N,Z,C,V>`, N most significant (R13). -/
def Flags.nzcv (f : Flags) : BitVec 4 :=
  BitVec.ofBool f.n ++ BitVec.ofBool f.z ++ BitVec.ofBool f.c ++ BitVec.ofBool f.v

/-- The flags that `PSTATE.<N,Z,C,V> = b` writes. -/
def Flags.ofNzcv (b : BitVec 4) : Flags := { n := b[3], z := b[2], c := b[1], v := b[0] }

/-- The flags CPYFP writes: `'0000'` under option A, `'0010'` under option B (R84, R91). -/
def Flags.ofOption (optA : Bool) : Flags := Flags.ofNzcv (if optA then 0b0000#4 else 0b0010#4)

/-- PSTATE.C does not name the option in force: it is 1 under option A, or 0 under option B (R85, R86). -/
def Flags.wrongOption (f : Flags) (optA : Bool) : Bool := f.nzcv[1] == optA

/-- `PSTATE.<N,Z,C,V> <- nzcv`. -/
def State.setFlags (s : State) (f : Flags) : State := { s with flags := f }

end Sys2Proof.Machine
end

