-- ==== Sys2Proof/Machine/Operands.lean ====
section
/-! DEFINITION. The operands of the three instructions: the checks before the Operation and the registers
they yield (30_encoding.md R67, R70), the access descriptors (40_memory_copy_forward.md R81), and the size in
its formats (R93, R95). -/

namespace Sys2Proof.Machine

/-- The three registers of a copy, each 0 to 30: destination address, source address, size. -/
structure CopyRegs where
  d : RegNum
  s : RegNum
  n : RegNum
deriving DecidableEq, Repr

/-- The register-number test of R67: some two equal, or one of them 31. -/
def registersClash (rs rn rd : BitVec 5) : Bool :=
  rs == rn || rs == rd || rn == rd || rd == 31#5 || rs == 31#5 || rn == 31#5

/-- The register that a field other than 31 names (R20, R21). -/
def regNum? (f : BitVec 5) : Option RegNum := if h : f.toNat < 31 then some ⟨f.toNat, h⟩ else none

/-- The registers of a copy, where the register-number test of R67 fails. -/
def copyRegs? (rs rn rd : BitVec 5) : Option CopyRegs :=
  if registersClash rs rn rd then none
  else
    match regNum? rd, regNum? rs, regNum? rn with
    | some d, some s, some n => some ⟨d, s, n⟩
    | _, _, _ => none

/-- What the checks before the Operation come to (R70). -/
inductive Checked where
  /-- `raise Undefined` (R131). -/
  | undef (case : UndefCase)
  /-- `EndOfInstruction()`: a no-operation (R67). -/
  | nop
  /-- The Operation runs with these registers. -/
  | run (r : CopyRegs)
deriving DecidableEq, Repr

/-- The checks of R70, in its order: the feature, `sz`, the enable check, the register numbers. -/
def checks (s : State) (sz : BitVec 2) (rs rn rd : BitVec 5) : Checked :=
  if !s.cfg.haveMops then .undef .noFeature
  else if sz ≠ 0b00#2 then .undef .sizeField
  else if !s.mopsEnabled then .undef .notEnabled
  else
    match copyRegs? rs rn rd with
    | some r => .run r
    | none =>
      match s.now.overlap31 with
      | .undef => .undef .registers
      | .nop => .nop

/-- `rprivileged` (with `i = 1`) or `wprivileged` (with `i = 0`) of R81; `i` is the bit of `options`. -/
def State.privileged (s : State) (options : BitVec 4) (i : Fin 4) : Bool :=
  let byOption : Bool := options[i.val] == false
  if s.cfg.haveUao && s.uao then s.el != .el0
  else
    match s.el with
    | .el0 => false
    | .el1 => if s.cfg.el2Enabled && s.cfg.haveNv && s.hcr.nv && s.hcr.nv1 then true else byOption
    | .el2 => if s.cfg.haveVhe && s.hcr.e2h && s.hcr.tge then byOption else true
    | .el3 => true

/-- `raccdesc` (R46, R81). -/
def State.readDesc (s : State) (options : BitVec 4) : AccDesc :=
  { op := .load, privileged := s.privileged options 1, nontemporal := options[3], mops := true }

/-- `waccdesc` (R46, R81). -/
def State.writeDesc (s : State) (options : BitVec 4) : AccDesc :=
  { op := .store, privileged := s.privileged options 0, nontemporal := options[2], mops := true }

/-- The saturated size: a test of bit 63 (R84, R95 (a)). -/
def saturate (size : Word) : Word := if size[63] then 0x7FFFFFFFFFFFFFFF#64 else size

/-- The magnitude of a size in the format of the option: `-SInt(v)` under option A, `UInt(v)` under option B
(40_memory_copy_forward.md, preamble). Under option A it is meant for `SInt(v) <= 0`. -/
def magnitude (optA : Bool) (size : Word) : Nat := if optA then (0#64 - size).toNat else size.toNat

end Sys2Proof.Machine
end

