-- ==== Sys2Proof/Machine/MemoryCopy.lean ====
section
/-! DEFINITION. Memory Copy Forward-only: the draws as R89 constrains them, the two copy loops (R87, R88) and
the meanings of CPYFP (R84), CPYFM (R85) and CPYFE (R86) of 40_memory_copy_forward.md. -/

namespace Sys2Proof.Machine

/-! ### Draws, constrained by R89

A draw that violates its constraint is not admissible and the machine has no step with it (R16). Each
function below answers the drawn value where it is admissible and an admissible one where it is not, so its
answers are exactly the admissible values (DESIGN CHOICE, safe, log entry 6). -/

/-- R89 (P): the source's two asserts on `stg` and the spec's addition, for the size after saturation and,
under option A, negation. -/
def preAdmissible (size stg : Word) : Bool :=
  (stg[63] == size[63] || stg == 0#64)
    && (if size.toInt > 0 then decide (stg.toInt ≤ size.toInt) else decide (stg.toInt ≥ size.toInt))
    && (size != 0#64 || stg == 0#64)

/-- `PRE_SIZE` (R8, R89 (P)). -/
def preSize (raw size : Word) : Word := if preAdmissible size raw then raw else 0#64

/-- R89 (Q): the source's assert on `post` and the spec's bound on its magnitude. -/
def postAdmissible (optA : Bool) (size post : Word) : Bool :=
  (post[63] == size[63] || post == 0#64)
    && (if optA then
          (if size.toInt ≤ 0 then decide (size.toInt ≤ post.toInt) && decide (post.toInt ≤ 0) else true)
        else decide (post.toNat ≤ size.toNat))

/-- `POST_SIZE` (R8, R89 (Q)). -/
def postSize (optA : Bool) (raw size : Word) : Word := if postAdmissible optA size raw then raw else 0#64

/-- R89 (S): `1 <= B <= N` and `B` at most what is left of the stage. -/
def blockAdmissible (limit left b : Nat) : Bool := decide (1 ≤ b) && decide (b ≤ limit) && decide (b ≤ left)

/-- `BLOCK_SIZE` of block `i` with `left` bytes left of the stage (R8, R89 (S)). -/
def State.blockSize (s : State) (i left : Nat) : Nat :=
  if blockAdmissible s.cfg.blockLimit left (s.rawBlock i) then s.rawBlock i else 1

/-- `ILLFORMED_M` or `ILLFORMED_E`: TRUE under option A with a positive size (R89 (I)), else as drawn. -/
def illformed (optA drawn : Bool) (size : Word) : Bool := drawn || (optA && decide (size.toInt > 0))

/-! ### The copy loops -/

/-- One block: a read of `n` bytes at `src`, then a write of them at `dst` (R45, R50). -/
def moveBlock (s : State) (src dst : Word) (n : Nat) (racc wacc : AccDesc) : Flow Unit :=
  match memRead s src n racc with
  | .ended o => .ended o
  | .done s1 data => memWrite s1 dst wacc data

/-- `X[n] <- size`, the write-back of loop A (R87); none in CPYFP. -/
def writeBackA (wb : Option CopyRegs) (size : Word) (s : State) : State :=
  match wb with
  | none => s
  | some r => s.writeX r.n size

/-- `X[n] <- size; X[d] <- to; X[s] <- from`, in this order (R84, R88). -/
def writeBackB (wb : Option CopyRegs) (to_ from_ size : Word) (s : State) : State :=
  match wb with
  | none => s
  | some r => ((s.writeX r.n size).writeX r.d to_).writeX r.s from_

/-- `CopyLoopA(to, from, size, stg, wb)` (R87), from block `i` on. `fuel` bounds the number of blocks; the
bytes of the stage are enough, since each block moves one or more (R166). The result is `size`. -/
def copyLoopA (racc wacc : AccDesc) (wb : Option CopyRegs) (to_ from_ : Word) :
    (fuel i : Nat) → (size stg : Word) → State → Flow Word
  | 0, _, size, _, s => .done s size
  | fuel + 1, i, size, stg, s =>
    if stg = 0#64 then .done s size
    else
      match moveBlock s (from_ + size) (to_ + size) (s.blockSize i (magnitude true stg)) racc wacc with
      | .ended o => .ended o
      | .done s1 _ =>
        let b := BitVec.ofNat 64 (s.blockSize i (magnitude true stg))
        copyLoopA racc wacc wb to_ from_ fuel (i + 1) (size + b) (stg + b) (writeBackA wb (size + b) s1)

/-- The working registers of an instruction, which do not outlive it (R30). -/
structure Work where
  to_ : Word
  from_ : Word
  size : Word
deriving DecidableEq, Repr

/-- `CopyLoopB(to, from, size, stg, wb)` (R88), from block `i` on; `fuel` as for `copyLoopA`. -/
def copyLoopB (racc wacc : AccDesc) (wb : Option CopyRegs) :
    (fuel i : Nat) → (w : Work) → (stg : Word) → State → Flow Work
  | 0, _, w, _, s => .done s w
  | fuel + 1, i, w, stg, s =>
    if stg = 0#64 then .done s w
    else
      match moveBlock s w.from_ w.to_ (s.blockSize i (magnitude false stg)) racc wacc with
      | .ended o => .ended o
      | .done s1 _ =>
        let b := BitVec.ofNat 64 (s.blockSize i (magnitude false stg))
        let w1 : Work := ⟨w.to_ + b, w.from_ + b, w.size - b⟩
        copyLoopB racc wacc wb fuel (i + 1) w1 (stg - b) (writeBackB wb w1.to_ w1.from_ w1.size s1)

/-- The copying part of an instruction: `stg` in the format of the option, by that option's loop. -/
def copyStage (options : BitVec 4) (wb : Option CopyRegs) (optA : Bool) (w : Work) (stg : Word) (s : State) :
    Flow Work :=
  if optA then
    match copyLoopA (s.readDesc options) (s.writeDesc options) wb w.to_ w.from_ (magnitude true stg) 0 w.size stg s with
    | .ended o => .ended o
    | .done s1 size => .done s1 { w with size := size }
  else
    copyLoopB (s.readDesc options) (s.writeDesc options) wb (magnitude false stg) 0 w stg s

/-! ### The three stages -/

/-- The working registers of CPYFP when its size choice is drawn: the size saturated and, under option A, the
addresses moved to the ends and the size negated (R84). -/
def prologueWork (optA : Bool) (to_ from_ size : Word) : Work :=
  let l := saturate size
  if optA then ⟨to_ + l, from_ + l, 0#64 - l⟩ else ⟨to_, from_, l⟩

/-- The Operation of CPYFP (R84), after the checks. -/
def prologue (options : BitVec 4) (r : CopyRegs) (s : State) : Host.Outcome State Fault Refusal :=
  let optA := s.now.optionA
  let w := prologueWork optA (s.readX r.d) (s.readX r.s) (s.readX r.n)
  match copyStage options none optA w (preSize s.now.preSize w.size) s with
  | .ended o => o
  | .done s1 w1 => .next ((writeBackB (some r) w1.to_ w1.from_ w1.size s1).setFlags (Flags.ofOption optA)).complete

/-- `raise MemCopyMismatch` (R132). -/
def raiseMismatch (options : BitVec 4) (r : CopyRegs) (wrongOption fromEpilogue : Bool) (s : State) :
    Host.Outcome State Fault Refusal :=
  .next (s.raise (.memCopyMismatch ⟨s.now.optionA, r.d, r.s, r.n, wrongOption, fromEpilogue, options⟩))

/-- The option test of CPYFM and CPYFE fails: the size is not zero, or a zero size is checked too, and
PSTATE.C does not name the option in force (R85, R86, R132 (a)). -/
def optionMismatch (r : CopyRegs) (s : State) : Bool :=
  (s.now.zeroSizeCheck || s.readX r.n != 0#64) && s.flags.wrongOption s.now.optionA

/-- The last part of CPYFM and CPYFE: the loop with write-back, and completion. -/
def copyAndComplete (options : BitVec 4) (r : CopyRegs) (stg : Word) (s : State) : Host.Outcome State Fault Refusal :=
  match copyStage options (some r) s.now.optionA ⟨s.readX r.d, s.readX r.s, s.readX r.n⟩ stg s with
  | .ended o => o
  | .done s1 _ => .next s1.complete

/-- `POST_SIZE` of the instruction that executes in `s` (R85, R86). -/
def State.post (s : State) (r : CopyRegs) : Word := postSize s.now.optionA s.now.postSize (s.readX r.n)

/-- The Operation of CPYFM (R85), after the checks. -/
def mainStage (options : BitVec 4) (r : CopyRegs) (s : State) : Host.Outcome State Fault Refusal :=
  if optionMismatch r s then raiseMismatch options r true false s
  else if illformed s.now.optionA s.now.illformedM (s.readX r.n) then raiseMismatch options r false false s
  else copyAndComplete options r (s.readX r.n - s.post r) s

/-- The Operation of CPYFE (R86), after the checks. -/
def epilogue (options : BitVec 4) (r : CopyRegs) (s : State) : Host.Outcome State Fault Refusal :=
  if optionMismatch r s then raiseMismatch options r true true s
  else if s.readX r.n ≠ s.post r ∨ illformed s.now.optionA s.now.illformedE (s.readX r.n) = true then
    raiseMismatch options r false true s
  else copyAndComplete options r (s.post r) s

/-- The checks of R70, then the Operation: what the three instructions share (R67, R70, R131). -/
def afterChecks (sz : BitVec 2) (rs rn rd : BitVec 5) (s : State)
    (operation : CopyRegs → Host.Outcome State Fault Refusal) : Host.Outcome State Fault Refusal :=
  match checks s sz rs rn rd with
  | .undef case => .next (s.raise (.undefined case))
  | .nop => .next s.complete
  | .run r => operation r

/-! ### The meanings -/

/-- CPYFP (R84). -/
def execCpyfp (sz : BitVec 2) (op2 : BitVec 4) (rs rn rd : BitVec 5) (s : State) : Host.Outcome State Fault Refusal :=
  afterChecks sz rs rn rd s (fun r => prologue op2 r s)

/-- CPYFM (R85). -/
def execCpyfm (sz : BitVec 2) (op2 : BitVec 4) (rs rn rd : BitVec 5) (s : State) : Host.Outcome State Fault Refusal :=
  afterChecks sz rs rn rd s (fun r => mainStage op2 r s)

/-- CPYFE (R86). -/
def execCpyfe (sz : BitVec 2) (op2 : BitVec 4) (rs rn rd : BitVec 5) (s : State) : Host.Outcome State Fault Refusal :=
  afterChecks sz rs rn rd s (fun r => epilogue op2 r s)

end Sys2Proof.Machine
end

