-- ==== Sys2Proof/Machine/Dispatch.lean ====
section
/-! DEFINITION. From instructions to their meanings, one arm per constructor of Instr. -/

namespace Sys2Proof.Machine

def exec (i : Instr) (s : State) : Host.Outcome State Fault Refusal :=
  match i with
  | .cpyfp sz op2 rs rn rd => Sys2Proof.Machine.execCpyfp sz op2 rs rn rd s
  | .cpyfm sz op2 rs rn rd => Sys2Proof.Machine.execCpyfm sz op2 rs rn rd s
  | .cpyfe sz op2 rs rn rd => Sys2Proof.Machine.execCpyfe sz op2 rs rn rd s

end Sys2Proof.Machine
end

