-- ==== Sys2Proof/Machine/Step.lean ====
section
/-! DEFINITION. One step: a faulted state has none (R135, I21); else the instruction at pc is fetched, decoded
and executed. -/

namespace Sys2Proof.Machine

/-- One step of the machine. -/
def step (s : State) : Host.Outcome State Fault Refusal :=
  match s.fault with
  | some f => .fault f
  | none =>
    match s.nextInstr with
    | .error r => .refused r
    | .ok i => exec i s

/-- `s` with the instruction whose bits are `w` placed in the program text at `pc` (log entry 4). -/
def State.withFetchWord (s : State) (nbits w : Nat) : State :=
  { s with text := s.text.placeText s.pc (bytesOfWord (tableWord nbits w)) }

end Sys2Proof.Machine
end

