-- ==== Sys2Proof/Machine/Run.lean ====
section
/-! DEFINITION. The end of a run (70_reset_and_hazards.md R167). -/

namespace Sys2Proof.Machine

/-- How a run towards an end address stands (R167). -/
inductive RunEnd where
  /-- (a) An instruction raised; the state that holds the recorded fault. -/
  | faulted (f : Fault) (s : State)
  /-- (b) The model refuses the step from this state. -/
  | refused (r : Refusal) (s : State)
  /-- (c) `pc` is the end address and no fault is recorded. -/
  | final (s : State)
  /-- None of these after the steps allowed. -/
  | running (s : State)
deriving DecidableEq, Repr

/-- The end of a run, (c): `pc` equals the end address that the claim names and no fault is recorded (R167). What
the hardware executes after that the rule does not say. -/
def State.final (s : State) (e : Word) : Bool := s.pc == e && s.fault.isNone

/-- The end address of a program of `k` instructions placed at `a` (R167). -/
def programEnd (a : Word) (k : Nat) : Word := a + BitVec.ofNat 64 (4 * k)

/-- A run towards the end address `e`, of at most `fuel` steps (R167). -/
def runTo (e : Word) : (fuel : Nat) → State → RunEnd
  | 0, s =>
    if s.final e then .final s
    else
      match s.fault with
      | some f => .faulted f s
      | none => .running s
  | fuel + 1, s =>
    if s.final e then .final s
    else
      match step s with
      | .next t => runTo e fuel t
      | .fault f => .faulted f s
      | .refused r => .refused r s

end Sys2Proof.Machine
end

