-- ==== Sys2Proof/Safety.lean ====
section
/-! DEFINITION. The terms that claims use: the invariant of a run, what a stage copies and where, when its
accesses are admitted, and the formats of a copy in progress (40_memory_copy_forward.md R90, R93, R94;
92_eei_decisions.md D10). -/

namespace Sys2Proof.Machine

/-! ### The invariant of a run -/

/-- What a recorded fault may say: a mismatch names three different registers and `options` 0000 (R67, R132);
a memory fault names a block of 1 to N bytes and a descriptor as R82 gives it (R45, R46, R133). -/
def State.faultOk (s : State) : Bool :=
  match s.fault with
  | none => true
  | some (.undefined _) => true
  | some (.memCopyMismatch r) =>
    r.options == 0#4 && r.destreg != r.srcreg && r.destreg != r.sizereg && r.srcreg != r.sizereg
  | some (.memoryFault _ _ n acc) =>
    decide (1 ≤ n) && decide (n ≤ s.cfg.blockLimit) && acc.privileged == (s.el != .el0) && !acc.nontemporal && acc.mops

/-- The invariant: memory in its canonical form, the program text in rising order, `pc` a multiple of 4 (R160
(L2)), and a recorded fault as above. -/
def State.inv (s : State) : Bool :=
  s.mem.wf && s.text.ordered && s.pc.extractLsb' 0 2 == 0#2 && s.faultOk

/-! ### What a stage copies -/

/-- The bytes CPYFP copies, `p = |stg|` (R84). -/
def prologueBytes (s : State) (r : CopyRegs) : Nat :=
  magnitude s.now.optionA
    (preSize s.now.preSize (prologueWork s.now.optionA (s.readX r.d) (s.readX r.s) (s.readX r.n)).size)

/-- The bytes that remain of a copy in progress, `R = |size|` (R85, R86). -/
def remaining (s : State) (r : CopyRegs) : Nat := magnitude s.now.optionA (s.readX r.n)

/-- The bytes the implementation leaves to the epilogue, `e = |post|` (R85). -/
def leftForEpilogue (s : State) (r : CopyRegs) : Nat := magnitude s.now.optionA (s.post r)

/-- Where the next source byte of a copy in progress lies (R93). -/
def nextSource (s : State) (r : CopyRegs) : Word :=
  if s.now.optionA then s.readX r.s + s.readX r.n else s.readX r.s

/-- Where the next destination byte of a copy in progress lies (R93). -/
def nextDest (s : State) (r : CopyRegs) : Word :=
  if s.now.optionA then s.readX r.d + s.readX r.n else s.readX r.d

/-- Blocks of the given sizes moved one after another, each read whole before it is written, addresses
ascending (R45, R50). -/
def moveBlocks (m : Memory) (src dst : Word) : List Nat → Memory
  | [] => m
  | b :: bs => moveBlocks (m.writeBlock dst (m.readBlock src b)) (src + BitVec.ofNat 64 b) (dst + BitVec.ofNat 64 b) bs

/-- Admissible sizes of successive blocks that move `k` bytes in all (R89 (S)). -/
def blocksOf (limit k : Nat) (bs : List Nat) : Prop := (∀ b ∈ bs, 1 ≤ b ∧ b ≤ limit) ∧ bs.sum = k

/-- None of the `k` bytes from `addr` lies in the program text (R160 (L3)). -/
def State.clearOfText (s : State) (addr : Word) (k : Nat) : Prop :=
  ∀ i, i < k → s.text.find (byteAddr addr i) = none

/-- The state after blocks of the given sizes: memory, and the accesses performed, two for each block (R45). -/
def State.withBlocks (s : State) (src dst : Word) (bs : List Nat) : State :=
  { s with mem := moveBlocks s.mem src dst bs, performed := s.performed + 2 * bs.length }

/-- A copy of `k` bytes meets no MemoryFault, into whatever blocks it is cut: after any blocks, the read of the
next and then its write are admitted (R94 (v)); and its destination is clear of the text. -/
def State.canCopy (s : State) (options : BitVec 4) (src dst : Word) (k : Nat) : Prop :=
  (∀ bs n, blocksOf s.cfg.blockLimit bs.sum bs → 1 ≤ n → n ≤ s.cfg.blockLimit → bs.sum + n ≤ k →
    (s.withBlocks src dst bs).memFault (src + BitVec.ofNat 64 bs.sum) n (s.readDesc options) = none ∧
    (s.withBlocks src dst bs).access.memFault (dst + BitVec.ofNat 64 bs.sum) n (s.writeDesc options) = none) ∧
  s.clearOfText dst k

/-- The ranges neither wrap nor overlap, or the source lies at or above the destination (R56 (a), (c), R94;
90_conflicts.md C9). -/
def copiesForward (src dst : Word) (k : Nat) : Prop :=
  src.toNat + k ≤ 2 ^ 64 ∧ dst.toNat + k ≤ 2 ^ 64 ∧ (dst.toNat ≤ src.toNat ∨ src.toNat + k ≤ dst.toNat)

/-- Address `a` is none of the `k` bytes from `addr`. -/
def outside (addr : Word) (k : Nat) (a : Word) : Prop := ∀ i, i < k → a ≠ addr + BitVec.ofNat 64 i

/-- What no instruction of this hardware writes: PSTATE.EL, PSTATE.UAO, HCR_EL2, the program text, and the
parameters of the machine, among them the enable of the launch state (R24, R25, R26, R54, R160 (L4)). -/
def sameControl (s t : State) : Prop :=
  t.el = s.el ∧ t.uao = s.uao ∧ t.hcr = s.hcr ∧ t.text = s.text ∧ t.cfg = s.cfg ∧ t.mopsEnabled = s.mopsEnabled ∧
    t.platform = s.platform

/-- The state after CPYFM or CPYFE has moved the blocks `bs`: memory, and the registers in the format of the
option (R87, R88, R90). -/
def afterBlocks (s : State) (r : CopyRegs) (bs : List Nat) : State :=
  let k := BitVec.ofNat 64 bs.sum
  let s1 := s.withBlocks (nextSource s r) (nextDest s r) bs
  if s.now.optionA then s1.writeX r.n (s.readX r.n + k)
  else ((s1.writeX r.n (s.readX r.n - k)).writeX r.d (s.readX r.d + k)).writeX r.s (s.readX r.s + k)

/-- The end of a block that faults, in the state `t` before it: its read, or its write after its read (R90,
R133). -/
def BlockFaults (t u : State) (src dst : Word) (n : Nat) (racc wacc : AccDesc) : Prop :=
  (∃ f, t.memFault src n racc = some f ∧ u = t.raise (.memoryFault f src n racc))
  ∨ (t.memFault src n racc = none
      ∧ ∃ f, t.access.memFault dst n wacc = some f ∧ u = t.access.raise (.memoryFault f dst n wacc))

/-! ### The three instructions alike -/

/-- The field sz of an instruction (R61). -/
def sizeFieldOf : Instr → BitVec 2
  | .cpyfp sz _ _ _ _ => sz
  | .cpyfm sz _ _ _ _ => sz
  | .cpyfe sz _ _ _ _ => sz

/-- What the checks of R70 answer for an instruction. -/
def checksOf (i : Instr) (s : State) : Checked :=
  match i with
  | .cpyfp sz _ rs rn rd => checks s sz rs rn rd
  | .cpyfm sz _ rs rn rd => checks s sz rs rn rd
  | .cpyfe sz _ rs rn rd => checks s sz rs rn rd

/-- The options of an instruction (R62). -/
def optionsOf : Instr → BitVec 4
  | .cpyfp _ op2 _ _ _ => op2
  | .cpyfm _ op2 _ _ _ => op2
  | .cpyfe _ op2 _ _ _ => op2

/-- Where an instruction's first block is read (R84 to R88). -/
def stageSource (i : Instr) (s : State) (r : CopyRegs) : Word :=
  match i with
  | .cpyfp _ _ _ _ _ => s.readX r.s
  | .cpyfm _ _ _ _ _ => nextSource s r
  | .cpyfe _ _ _ _ _ => nextSource s r

/-- Where an instruction's first block is written (R84 to R88). -/
def stageDest (i : Instr) (s : State) (r : CopyRegs) : Word :=
  match i with
  | .cpyfp _ _ _ _ _ => s.readX r.d
  | .cpyfm _ _ _ _ _ => nextDest s r
  | .cpyfe _ _ _ _ _ => nextDest s r

/-- How many bytes an instruction copies where nothing stops it: `p` of R84, `R - e` of R85, `R` of R86. -/
def stageBytes (i : Instr) (s : State) (r : CopyRegs) : Nat :=
  match i with
  | .cpyfp _ _ _ _ _ => prologueBytes s r
  | .cpyfm _ _ _ _ _ => remaining s r - leftForEpilogue s r
  | .cpyfe _ _ _ _ _ => remaining s r

/-- CPYFM rejects its parameters: `ILLFORMED_M` (R132 (b)). -/
def mainRejects (s : State) (r : CopyRegs) : Prop := illformed s.now.optionA s.now.illformedM (s.readX r.n) = true

/-- CPYFE rejects its parameters: `size != post` or `ILLFORMED_E` (R132 (c)). -/
def epilogueRejects (s : State) (r : CopyRegs) : Prop :=
  s.readX r.n ≠ s.post r ∨ illformed s.now.optionA s.now.illformedE (s.readX r.n) = true

/-- No MemCopyMismatch: CPYFP tests nothing; CPYFM and CPYFE pass the option test and do not reject their
parameters (R84, R85, R86). -/
def testsPass (i : Instr) (s : State) (r : CopyRegs) : Prop :=
  match i with
  | .cpyfp _ _ _ _ _ => True
  | .cpyfm _ _ _ _ _ => optionMismatch r s = false ∧ ¬ mainRejects s r
  | .cpyfe _ _ _ _ _ => optionMismatch r s = false ∧ ¬ epilogueRejects s r

/-- The state after an instruction has moved the blocks `bs` and before anything else: CPYFP writes no register
until its last block is moved (R90). -/
def duringStage (i : Instr) (s : State) (r : CopyRegs) (bs : List Nat) : State :=
  match i with
  | .cpyfp _ _ _ _ _ => s.withBlocks (s.readX r.s) (s.readX r.d) bs
  | .cpyfm _ _ _ _ _ => afterBlocks s r bs
  | .cpyfe _ _ _ _ _ => afterBlocks s r bs

/-! ### The formats of a copy in progress -/

/-- The registers hold a copy of `l` bytes from `src` to `dst` with `rest` bytes to go, in the format of the
option (R93). -/
def State.inFormat (s : State) (optA : Bool) (r : CopyRegs) (src dst : Word) (l rest : Nat) : Prop :=
  if optA then
    s.readX r.n = 0#64 - BitVec.ofNat 64 rest ∧ s.readX r.s = src + BitVec.ofNat 64 l
      ∧ s.readX r.d = dst + BitVec.ofNat 64 l
  else
    s.readX r.n = BitVec.ofNat 64 rest ∧ s.readX r.s = src + BitVec.ofNat 64 (l - rest)
      ∧ s.readX r.d = dst + BitVec.ofNat 64 (l - rest)

end Sys2Proof.Machine
end

