-- ==== Sys2Proof/Certificates/Slice0/Obligations.lean ====
section
/-! DEFINITION. The statements for the provers, from the numbered rules of spec/. -/

open Sys2Proof Sys2Proof.Machine

/-! ### Encoding and fetch -/

/-- Decoding what was encoded gives the instruction back, as a word and as bytes in the text (R61, R62, R63).
The bit positions are log entry 14. -/
def Obligations.DecodeOfEncodeIsIdentity : Prop :=
  ∀ i : Instr, i.wf = true → decodeWord (encodeWord i) = .ok i ∧ decode (encode i) = .ok (i, [])

/-- Every word that decodes is the encoding of the well-formed instruction it decodes to (R61, R62, R63). The
bit positions are log entry 14. -/
def Obligations.EncodeOfDecodeIsIdentity : Prop :=
  ∀ (w : BitVec 32) (i : Instr), decodeWord w = .ok i → i.wf = true ∧ encodeWord i = w

/-- The three rows of R63 with the operands of R62, and no other word decodes. The bit positions are log entry
14, the refusal of every other word log entry 17. -/
def Obligations.TableRowsDecode : Prop :=
  ∀ w : BitVec 32,
    (w &&& 0x3FE0FC00#32 = 0x19000400#32 → decodeWord w = .ok
      (.cpyfp (w.extractLsb' 30 2) 0#4 (w.extractLsb' 16 5) (w.extractLsb' 5 5) (w.extractLsb' 0 5))) ∧
    (w &&& 0x3FE0FC00#32 = 0x19400400#32 → decodeWord w = .ok
      (.cpyfm (w.extractLsb' 30 2) 0#4 (w.extractLsb' 16 5) (w.extractLsb' 5 5) (w.extractLsb' 0 5))) ∧
    (w &&& 0x3FE0FC00#32 = 0x19800400#32 → decodeWord w = .ok
      (.cpyfe (w.extractLsb' 30 2) 0#4 (w.extractLsb' 16 5) (w.extractLsb' 5 5) (w.extractLsb' 0 5))) ∧
    (w &&& 0x3FE0FC00#32 ≠ 0x19000400#32 → w &&& 0x3FE0FC00#32 ≠ 0x19400400#32 →
      w &&& 0x3FE0FC00#32 ≠ 0x19800400#32 → ∀ i, decodeWord w ≠ .ok i)

/-- Words written out in 95_test_vectors.md V1 to V6 decode to the instructions they stand for. The bit
positions are log entry 14. -/
def Obligations.SpecWordsDecode : Prop :=
  decodeWord 0x19010440#32 = .ok (.cpyfp 0#2 0#4 1#5 2#5 0#5) ∧
  decodeWord 0x19410440#32 = .ok (.cpyfm 0#2 0#4 1#5 2#5 0#5) ∧
  decodeWord 0x19810440#32 = .ok (.cpyfe 0#2 0#4 1#5 2#5 0#5) ∧
  decodeWord 0x195D079E#32 = .ok (.cpyfm 0#2 0#4 29#5 28#5 30#5) ∧
  decodeWord 0x59010440#32 = .ok (.cpyfp 1#2 0#4 1#5 2#5 0#5) ∧
  decodeWord 0x198107E0#32 = .ok (.cpyfe 0#2 0#4 1#5 31#5 0#5)

/-- A step runs the instruction that the four text bytes at pc decode to, and adds nothing to it (R22, R60). The
program text apart from memory is log entry 4, the byte order of the fetch log entry 14. -/
def Obligations.StepRunsDecodedInstruction : Prop :=
  ∀ (s : State) (b0 b1 b2 b3 : Byte) (i : Instr),
    s.fault = none → s.pc.toNat % 4 = 0 → s.pc.toNat ≠ 2 ^ 64 - 4 →
    s.text.find s.pc.toNat = some b0 → s.text.find (s.pc.toNat + 1) = some b1 →
    s.text.find (s.pc.toNat + 2) = some b2 → s.text.find (s.pc.toNat + 3) = some b3 →
    decodeWord (b3 ++ b2 ++ b1 ++ b0) = .ok i →
    step s = exec i s

/-- Where the fetch is refused: a misaligned pc, a pc whose advance would wrap, no text at pc (R22, R160, R167).
The places of the refusals are log entries 4 and 15. -/
def Obligations.FetchRefusals : Prop :=
  ∀ s : State, s.fault = none →
    (s.pc.toNat % 4 ≠ 0 → step s = .refused .pcMisaligned) ∧
    (s.pc.toNat = 2 ^ 64 - 4 → step s = .refused .pcAtTopOfAddressSpace) ∧
    (s.pc.toNat % 4 = 0 → s.pc.toNat ≠ 2 ^ 64 - 4 →
      (∃ i, i < 4 ∧ s.text.find (s.pc.toNat + i) = none) → step s = .refused .noProgramText)

/-- A word outside the three rows is refused by name and no fault: op1 = 11 (R65), op2 not 0000 (R66), other
constant bits (R167). That the decoder alone decides it is log entry 17. -/
def Obligations.WordsOffTheTableAreRefused : Prop :=
  ∀ (s : State) (w : BitVec 32), s.fault = none → s.fetch = .ok (bytesOfWord w) →
    (w &&& 0x3FE0FC00#32 = 0x19C00400#32 → step s = .refused .seeMemoryCopyAndMemorySet) ∧
    (w &&& 0x3F200C00#32 = 0x19000400#32 → w &&& 0xF000#32 ≠ 0#32 → step s = .refused .optionsNotInSource) ∧
    (w &&& 0x3F200C00#32 ≠ 0x19000400#32 → step s = .refused .notInOpcodeTable)

/-- A faulted state has no further step (R135). That the step answers the fault is log entry 11. -/
def Obligations.FaultedStateHasNoFurtherStep : Prop :=
  ∀ (s : State) (f : Fault), s.fault = some f → step s = .fault f

/-! ### The checks before the Operation -/

/-- The feature test and the sz test come first, in this order (R64, R70, R131). The recorded fault and the pc left
in place are log entry 11, the names of the cases decision D6 of the spec. -/
def Obligations.FeatureAndSizeFieldTestsComeFirst : Prop :=
  ∀ (s : State) (sz : BitVec 2) (op2 : BitVec 4) (rs rn rd : BitVec 5),
    (s.cfg.haveMops = false →
      exec (.cpyfp sz op2 rs rn rd) s = .next (s.raise (.undefined .noFeature)) ∧
      exec (.cpyfm sz op2 rs rn rd) s = .next (s.raise (.undefined .noFeature)) ∧
      exec (.cpyfe sz op2 rs rn rd) s = .next (s.raise (.undefined .noFeature))) ∧
    (s.cfg.haveMops = true → sz ≠ 0b00#2 →
      exec (.cpyfp sz op2 rs rn rd) s = .next (s.raise (.undefined .sizeField)) ∧
      exec (.cpyfm sz op2 rs rn rd) s = .next (s.raise (.undefined .sizeField)) ∧
      exec (.cpyfe sz op2 rs rn rd) s = .next (s.raise (.undefined .sizeField)))

/-- The enable check, and then the register-number test with its two outcomes, of which neither copies (R5, R67,
R131). MOPS_ENABLED is log entry 7, the draw log entries 5 and 22. -/
def Obligations.EnableCheckAndRegisterClash : Prop :=
  ∀ (s : State) (op2 : BitVec 4) (rs rn rd : BitVec 5) (i : Instr),
    i = .cpyfp 0#2 op2 rs rn rd ∨ i = .cpyfm 0#2 op2 rs rn rd ∨ i = .cpyfe 0#2 op2 rs rn rd →
    s.cfg.haveMops = true →
    (s.mopsEnabled = false → exec i s = .next (s.raise (.undefined .notEnabled))) ∧
    (s.mopsEnabled = true →
      rs = rn ∨ rs = rd ∨ rn = rd ∨ rd = 31#5 ∨ rs = 31#5 ∨ rn = 31#5 →
      (s.now.overlap31 = .undef → exec i s = .next (s.raise (.undefined .registers))) ∧
      (s.now.overlap31 = .nop → exec i s = .next s.complete))

/-- When the Operation runs, and with which registers: the checks in the order of R70 all pass, and the register
numbers are those of the fields, pairwise distinct and 0 to 30 (R21, R67, R70, R83). MOPS_ENABLED as a value
of the launch state is log entry 7, register 31 log entry 20. -/
def Obligations.OperationRunsWhenAllChecksPass : Prop :=
  ∀ (s : State) (sz : BitVec 2) (rs rn rd : BitVec 5) (r : CopyRegs),
    checks s sz rs rn rd = .run r ↔
      s.cfg.haveMops = true ∧ sz = 0b00#2 ∧ s.mopsEnabled = true ∧
      r.d.val = rd.toNat ∧ r.s.val = rs.toNat ∧ r.n.val = rn.toNat ∧
      r.s ≠ r.n ∧ r.s ≠ r.d ∧ r.n ≠ r.d

/-! ### Access attributes -/

/-- The access attributes for any options (R81). -/
def Obligations.AccessAttributesForAnyOptions : Prop :=
  ∀ (s : State) (options : BitVec 4),
    (s.readDesc options).op = .load ∧ (s.writeDesc options).op = .store ∧
    ((s.readDesc options).nontemporal = true ↔ options[3] = true) ∧
    ((s.writeDesc options).nontemporal = true ↔ options[2] = true) ∧
    (s.cfg.haveUao = true ∧ s.uao = true →
      ((s.readDesc options).privileged = true ↔ s.el ≠ .el0) ∧
      ((s.writeDesc options).privileged = true ↔ s.el ≠ .el0)) ∧
    (¬ (s.cfg.haveUao = true ∧ s.uao = true) →
      (s.el = .el0 → (s.readDesc options).privileged = false ∧ (s.writeDesc options).privileged = false) ∧
      (s.el = .el1 →
        (s.cfg.el2Enabled = true ∧ s.cfg.haveNv = true ∧ s.hcr.nv = true ∧ s.hcr.nv1 = true →
          (s.readDesc options).privileged = true ∧ (s.writeDesc options).privileged = true) ∧
        (¬ (s.cfg.el2Enabled = true ∧ s.cfg.haveNv = true ∧ s.hcr.nv = true ∧ s.hcr.nv1 = true) →
          ((s.readDesc options).privileged = true ↔ options[1] = false) ∧
          ((s.writeDesc options).privileged = true ↔ options[0] = false))) ∧
      (s.el = .el2 →
        (s.cfg.haveVhe = true ∧ s.hcr.e2h = true ∧ s.hcr.tge = true →
          ((s.readDesc options).privileged = true ↔ options[1] = false) ∧
          ((s.writeDesc options).privileged = true ↔ options[0] = false)) ∧
        (¬ (s.cfg.haveVhe = true ∧ s.hcr.e2h = true ∧ s.hcr.tge = true) →
          (s.readDesc options).privileged = true ∧ (s.writeDesc options).privileged = true)) ∧
      (s.el = .el3 → (s.readDesc options).privileged = true ∧ (s.writeDesc options).privileged = true))

/-- For the encodings in scope: privileged exactly outside EL0, never non-temporal, whatever UAO, HCR_EL2 and
the configuration are (R82). R82 is marked derived by the spec. -/
def Obligations.AccessAttributesInScope : Prop :=
  ∀ s : State,
    s.readDesc 0b0000#4 = ⟨.load, decide (s.el ≠ .el0), false, true⟩ ∧
    s.writeDesc 0b0000#4 = ⟨.store, decide (s.el ≠ .el0), false, true⟩

/-- At EL0, where no declared range gives an unprivileged right to read, an instruction that would copy
something ends in MemoryFault with its first read, marked unprivileged, and changes nothing else (R46, R47, R82,
R133). The platform as declared ranges is log entry 10, the name of the fault log entry 27. -/
def Obligations.UnprivilegedReadWithoutRightFaults : Prop :=
  ∀ (i : Instr) (s : State) (r : CopyRegs),
    optionsOf i = 0b0000#4 → checksOf i s = .run r → testsPass i s r → 1 ≤ stageBytes i s r →
    s.el = .el0 → s.platform.answers = [] → (∀ g ∈ s.platform.regions, g.unprivRead = false) →
    exec i s = .next (s.raise (.memoryFault .notDeclared (stageSource i s r)
      (s.blockSize 0 (stageBytes i s r)) ⟨.load, false, false, true⟩))

/-! ### Memory -/

/-- A write faults and changes no byte, or is refused where it meets the text, or puts each byte in its place,
leaves every other byte and everything else of the state, but for the count of accesses performed, which advances by
one (R42, R54). The count is log entry 10; byte order, the refusal and the unchanged bytes are log entries 13, 16 and
24. -/
def Obligations.WriteChangesExactlyItsBytes : Prop :=
  ∀ (s : State) (addr : Word) (acc : AccDesc) (v : List Byte), v.length ≤ 2 ^ 64 →
    (∀ f, s.memFault addr v.length acc = some f →
      memWrite s addr acc v = .ended (.next (s.raise (.memoryFault f addr v.length acc)))) ∧
    (s.memFault addr v.length acc = none →
      (¬ s.clearOfText addr v.length → memWrite s addr acc v = .ended (.refused .destinationInProgramText)) ∧
      (s.clearOfText addr v.length → ∃ m, memWrite s addr acc v = .done (s.setMem m).access () ∧
        (∀ i (h : i < v.length), (s.setMem m).byte (addr + BitVec.ofNat 64 i) = v[i]) ∧
        ∀ a, outside addr v.length a → (s.setMem m).byte a = s.byte a))

/-- A read faults, or returns the bytes at ascending addresses modulo 2^64 and changes nothing of the state but the
count of accesses performed, which advances by one (R41). The count is log entry 10, the byte placement log entry
13. -/
def Obligations.ReadReturnsTheBytes : Prop :=
  ∀ (s : State) (addr : Word) (n : Nat) (acc : AccDesc),
    (∀ f, s.memFault addr n acc = some f →
      memRead s addr n acc = .ended (.next (s.raise (.memoryFault f addr n acc)))) ∧
    (s.memFault addr n acc = none → ∃ v, memRead s addr n acc = .done s.access v ∧ v.length = n ∧
      ∀ i (h : i < v.length), v[i] = s.byte (addr + BitVec.ofNat 64 i))

/-- One block copies its bytes, also where source and destination overlap, since it is read whole before it is
written (R43, R50). R43 is marked derived by the spec. -/
def Obligations.OneBlockCopiesItsBytes : Prop :=
  ∀ (s t : State) (src dst : Word) (n : Nat) (racc wacc : AccDesc), n ≤ 2 ^ 64 →
    moveBlock s src dst n racc wacc = .done t () →
    (∀ i, i < n → t.byte (dst + BitVec.ofNat 64 i) = s.byte (src + BitVec.ofNat 64 i)) ∧
    (∀ a, outside dst n a → t.byte a = s.byte a)

/-- The conservative memory: with no answer besides the declared ranges, an access is admitted exactly where one
range holds all its bytes and gives the right at the descriptor's privilege, in every state of the memory system
(R47). The platform as plain data is log entry 10. -/
def Obligations.AccessAdmittedInsideDeclaredRanges : Prop :=
  ∀ (p : Platform) (m : Memory) (performed : Nat) (addr : Word) (n : Nat) (acc : AccDesc), p.answers = [] →
    (p.memFault m performed addr n acc = none ↔ ∃ g ∈ p.regions,
      (∀ i, i < n → g.base ≤ (addr + BitVec.ofNat 64 i).toNat ∧ (addr + BitVec.ofNat 64 i).toNat < g.base + g.size) ∧
      (acc.op = .load → (if acc.privileged then g.privRead else g.unprivRead) = true) ∧
      (acc.op = .store → (if acc.privileged then g.privWrite else g.unprivWrite) = true))

/-! ### Draws -/

/-- The prologue's size choice takes exactly the values that R89 (P) admits; for the sizes CPYFP has, those are
the bounds R89 (P) draws from it. The treatment of inadmissible draws is log entry 6, the added bound log entry
23. -/
def Obligations.PreSizeIsExactlyAdmissible : Prop :=
  (∀ size stg : Word, (∃ raw, preSize raw size = stg) ↔
    (stg[63] = size[63] ∨ stg = 0#64) ∧
    (size.toInt > 0 → stg.toInt ≤ size.toInt) ∧ (size.toInt ≤ 0 → stg.toInt ≥ size.toInt) ∧
    (size = 0#64 → stg = 0#64)) ∧
  (∀ x stg : Word, (∃ raw, preSize raw (0#64 - saturate x) = stg) ↔
    (0#64 - saturate x).toInt ≤ stg.toInt ∧ stg.toInt ≤ 0) ∧
  (∀ x stg : Word, (∃ raw, preSize raw (saturate x) = stg) ↔ stg.toNat ≤ (saturate x).toNat)

/-- The post size takes exactly the values that R89 (Q) admits, and none but 0 for size 0. The treatment of
inadmissible draws is log entry 6, the added bound log entry 23. -/
def Obligations.PostSizeIsExactlyAdmissible : Prop :=
  (∀ size post : Word, (∃ raw, postSize true raw size = post) ↔
    (post[63] = size[63] ∨ post = 0#64) ∧
    (size.toInt ≤ 0 → size.toInt ≤ post.toInt ∧ post.toInt ≤ 0)) ∧
  (∀ size post : Word, (∃ raw, postSize false raw size = post) ↔
    (post[63] = size[63] ∨ post = 0#64) ∧ post.toNat ≤ size.toNat) ∧
  (∀ (optA : Bool) (raw : Word), postSize optA raw 0#64 = 0#64)

/-- The block size takes exactly the values that R89 (S) admits wherever something is left, and the ill-formed
answers are free but for the option A size above zero (R89 (S), (I)). The treatment of inadmissible draws is log
entry 6, the least block size log entry 9, the added bounds log entry 23. -/
def Obligations.BlockSizeIsExactlyAdmissible : Prop :=
  (∀ (s : State) (i left : Nat), 1 ≤ left →
    1 ≤ s.blockSize i left ∧ s.blockSize i left ≤ s.cfg.blockLimit ∧ s.blockSize i left ≤ left) ∧
  (∀ (s : State) (left b : Nat), 1 ≤ b → b ≤ s.cfg.blockLimit → b ≤ left →
    ∀ i, ∃ ds, ({ s with draws := ds } : State).blockSize i left = b) ∧
  (∀ (optA drawn : Bool) (size : Word),
    illformed optA drawn size = true ↔ drawn = true ∨ (optA = true ∧ size.toInt > 0))

/-! ### The copy loops -/

/-- Loop A is the while loop of R87: with no bytes left of the stage it returns `size`; else it moves one
admissible block from `from + size` to `to + size`, advances, writes X[n] back in CPYFM and CPYFE only, and goes
on with that many bytes fewer. The bound on the number of blocks plays no part. The per-block write-back is log
entry 19, the bound below on a block log entry 23. -/
def Obligations.LoopAIsTheWhileLoop : Prop :=
  ∀ (racc wacc : AccDesc) (wb : Option CopyRegs) (to_ from_ size stg : Word) (fuel i : Nat) (s : State),
    magnitude true stg ≤ fuel →
    (stg = 0#64 → copyLoopA racc wacc wb to_ from_ fuel i size stg s = .done s size) ∧
    (stg ≠ 0#64 → ∃ b, b = s.blockSize i (magnitude true stg) ∧ 1 ≤ b ∧ b ≤ s.cfg.blockLimit ∧
      b ≤ magnitude true stg ∧ magnitude true (stg + BitVec.ofNat 64 b) = magnitude true stg - b ∧
      ∀ fuel', magnitude true stg - b ≤ fuel' →
        copyLoopA racc wacc wb to_ from_ fuel i size stg s =
          match memRead s (from_ + size) b racc with
          | .ended o => .ended o
          | .done s1 data =>
            match memWrite s1 (to_ + size) wacc data with
            | .ended o => .ended o
            | .done s2 _ =>
              copyLoopA racc wacc wb to_ from_ fuel' (i + 1) (size + BitVec.ofNat 64 b) (stg + BitVec.ofNat 64 b)
                (match wb with
                 | none => s2
                 | some r => s2.writeX r.n (size + BitVec.ofNat 64 b)))

/-- Loop B is the while loop of R88: as loop A, with the block from `from` to `to`, both advanced, the size and
the stage reduced, and X[n], X[d], X[s] written back in CPYFM and CPYFE only. The per-block write-back is log
entry 19, the bound below on a block log entry 23. -/
def Obligations.LoopBIsTheWhileLoop : Prop :=
  ∀ (racc wacc : AccDesc) (wb : Option CopyRegs) (to_ from_ size stg : Word) (fuel i : Nat) (s : State),
    magnitude false stg ≤ fuel →
    (stg = 0#64 → copyLoopB racc wacc wb fuel i ⟨to_, from_, size⟩ stg s = .done s ⟨to_, from_, size⟩) ∧
    (stg ≠ 0#64 → ∃ b, b = s.blockSize i stg.toNat ∧ 1 ≤ b ∧ b ≤ s.cfg.blockLimit ∧
      b ≤ stg.toNat ∧ (stg - BitVec.ofNat 64 b).toNat = stg.toNat - b ∧
      ∀ fuel', stg.toNat - b ≤ fuel' →
        copyLoopB racc wacc wb fuel i ⟨to_, from_, size⟩ stg s =
          match memRead s from_ b racc with
          | .ended o => .ended o
          | .done s1 data =>
            match memWrite s1 to_ wacc data with
            | .ended o => .ended o
            | .done s2 _ =>
              copyLoopB racc wacc wb fuel' (i + 1)
                ⟨to_ + BitVec.ofNat 64 b, from_ + BitVec.ofNat 64 b, size - BitVec.ofNat 64 b⟩ (stg - BitVec.ofNat 64 b)
                (match wb with
                 | none => s2
                 | some r => ((s2.writeX r.n (size - BitVec.ofNat 64 b)).writeX r.d (to_ + BitVec.ofNat 64 b)).writeX r.s
                    (from_ + BitVec.ofNat 64 b)))

/-! ### CPYFP -/

/-- CPYFP completes where the checks pass and the bytes it chooses to copy can be copied, with the registers and
flags of R84, in both options. The draws are log entries 5 and 6. -/
def Obligations.CpyfpCompletes : Prop :=
  ∀ (sz : BitVec 2) (op2 : BitVec 4) (rs rn rd : BitVec 5) (s : State) (r : CopyRegs),
    checks s sz rs rn rd = .run r →
    s.canCopy op2 (s.readX r.s) (s.readX r.d) (prologueBytes s r) →
    prologueBytes s r ≤ (saturate (s.readX r.n)).toNat ∧
    ∃ bs, blocksOf s.cfg.blockLimit (prologueBytes s r) bs ∧
      (s.now.optionA = true → exec (.cpyfp sz op2 rs rn rd) s = .next
          (((((s.withBlocks (s.readX r.s) (s.readX r.d) bs).writeX r.n
            (0#64 - (saturate (s.readX r.n) - BitVec.ofNat 64 (prologueBytes s r)))).writeX r.d
            (s.readX r.d + saturate (s.readX r.n))).writeX r.s
            (s.readX r.s + saturate (s.readX r.n))).setFlags ⟨false, false, false, false⟩).complete) ∧
      (s.now.optionA = false → exec (.cpyfp sz op2 rs rn rd) s = .next
          (((((s.withBlocks (s.readX r.s) (s.readX r.d) bs).writeX r.n
            (saturate (s.readX r.n) - BitVec.ofNat 64 (prologueBytes s r))).writeX r.d
            (s.readX r.d + BitVec.ofNat 64 (prologueBytes s r))).writeX r.s
            (s.readX r.s + BitVec.ofNat 64 (prologueBytes s r))).setFlags ⟨false, false, true, false⟩).complete)

/-- A zero-length prologue completes with no access to memory: only the flags and pc change (R84, R96). That
size 0 forces the choice 0 is log entry 23. -/
def Obligations.CpyfpOfZeroLength : Prop :=
  ∀ (sz : BitVec 2) (op2 : BitVec 4) (rs rn rd : BitVec 5) (s : State) (r : CopyRegs),
    checks s sz rs rn rd = .run r → s.readX r.n = 0#64 →
    exec (.cpyfp sz op2 rs rn rd) s = .next (s.setFlags ⟨false, false, !s.now.optionA, false⟩).complete

/-- The frame of CPYFP, however it ends: registers other than Xd, Xs, Xn, control state, and every byte outside the
bytes it copies to (R84, R90). -/
def Obligations.CpyfpFrame : Prop :=
  ∀ (sz : BitVec 2) (op2 : BitVec 4) (rs rn rd : BitVec 5) (s t : State),
    exec (.cpyfp sz op2 rs rn rd) s = .next t →
    (∀ j : RegNum, j.val ≠ rd.toNat → j.val ≠ rs.toNat → j.val ≠ rn.toNat → t.readX j = s.readX j) ∧
    sameControl s t ∧
    (∀ r, checks s sz rs rn rd = .run r →
      ∀ a, outside (s.readX r.d) (prologueBytes s r) a → t.byte a = s.byte a) ∧
    ((∀ r, checks s sz rs rn rd ≠ .run r) → t.mem = s.mem ∧ t.x = s.x ∧ t.flags = s.flags)

/-- A MemoryFault of CPYFP is that of the read or the write of one block inside the bytes to copy; it leaves
every register, the flags and pc as they were, and the blocks before it in memory (R90, R133). The recorded
fault is log entry 11, the unchanged bytes of the faulting block log entry 24. -/
def Obligations.CpyfpMemoryFault : Prop :=
  ∀ (sz : BitVec 2) (op2 : BitVec 4) (rs rn rd : BitVec 5) (s t : State) (f : FaultInfo) (addr : Word) (n : Nat)
    (acc : AccDesc),
    exec (.cpyfp sz op2 rs rn rd) s = .next t → s.fault = none → t.fault = some (.memoryFault f addr n acc) →
    ∃ r bs, checks s sz rs rn rd = .run r ∧ blocksOf s.cfg.blockLimit bs.sum bs ∧ 1 ≤ n ∧ n ≤ s.cfg.blockLimit ∧
      bs.sum + n ≤ prologueBytes s r ∧
      BlockFaults (s.withBlocks (s.readX r.s) (s.readX r.d) bs) t (s.readX r.s + BitVec.ofNat 64 bs.sum)
        (s.readX r.d + BitVec.ofNat 64 bs.sum) n (s.readDesc op2) (s.writeDesc op2)

/-- Saturation and negation of the size (R95 (a), (b)). -/
def Obligations.SaturationAndNegation : Prop :=
  ∀ x : Word,
    (x.toNat < 2 ^ 63 → saturate x = x) ∧ (2 ^ 63 ≤ x.toNat → saturate x = 0x7FFFFFFFFFFFFFFF#64) ∧
    (saturate x).toNat ≤ 2 ^ 63 - 1 ∧ 0 ≤ (saturate x).toInt ∧
    -(2 ^ 63 - 1 : Int) ≤ (0#64 - saturate x).toInt ∧ (0#64 - saturate x).toInt ≤ 0 ∧
    0#64 - saturate x ≠ 0x8000000000000000#64

/-! ### CPYFM and CPYFE -/

/-- CPYFM completes where the checks and the two mismatch tests pass and the bytes of the stage can be copied:
all but the bytes left for the epilogue are copied, X[n] holds those in the format of the option, and under
option B X[d] and X[s] have advanced (R85). The draws are log entries 5 and 6. -/
def Obligations.CpyfmCompletes : Prop :=
  ∀ (sz : BitVec 2) (op2 : BitVec 4) (rs rn rd : BitVec 5) (s : State) (r : CopyRegs),
    checks s sz rs rn rd = .run r → optionMismatch r s = false →
    illformed s.now.optionA s.now.illformedM (s.readX r.n) = false →
    s.canCopy op2 (nextSource s r) (nextDest s r) (remaining s r - leftForEpilogue s r) →
    leftForEpilogue s r ≤ remaining s r ∧
    ∃ bs, blocksOf s.cfg.blockLimit (remaining s r - leftForEpilogue s r) bs ∧
      (s.now.optionA = true → exec (.cpyfm sz op2 rs rn rd) s = .next
          ((s.withBlocks (nextSource s r) (nextDest s r) bs).writeX r.n
            (0#64 - BitVec.ofNat 64 (leftForEpilogue s r))).complete) ∧
      (s.now.optionA = false → exec (.cpyfm sz op2 rs rn rd) s = .next
          ((((s.withBlocks (nextSource s r) (nextDest s r) bs).writeX r.n
            (BitVec.ofNat 64 (leftForEpilogue s r))).writeX r.d
            (s.readX r.d + BitVec.ofNat 64 (remaining s r - leftForEpilogue s r))).writeX r.s
            (s.readX r.s + BitVec.ofNat 64 (remaining s r - leftForEpilogue s r))).complete)

/-- CPYFE completes where the checks and the mismatch tests pass and the remaining bytes can be copied: all of
them are copied, X[n] is 0, and under option B X[d] and X[s] have advanced (R86). The draws are log entries 5
and 6. -/
def Obligations.CpyfeCompletes : Prop :=
  ∀ (sz : BitVec 2) (op2 : BitVec 4) (rs rn rd : BitVec 5) (s : State) (r : CopyRegs),
    checks s sz rs rn rd = .run r → optionMismatch r s = false →
    s.readX r.n = s.post r → illformed s.now.optionA s.now.illformedE (s.readX r.n) = false →
    s.canCopy op2 (nextSource s r) (nextDest s r) (remaining s r) →
    ∃ bs, blocksOf s.cfg.blockLimit (remaining s r) bs ∧
      (s.now.optionA = true → exec (.cpyfe sz op2 rs rn rd) s = .next
          ((s.withBlocks (nextSource s r) (nextDest s r) bs).writeX r.n 0#64).complete) ∧
      (s.now.optionA = false → exec (.cpyfe sz op2 rs rn rd) s = .next
          ((((s.withBlocks (nextSource s r) (nextDest s r) bs).writeX r.n 0#64).writeX r.d
            (s.readX r.d + BitVec.ofNat 64 (remaining s r))).writeX r.s
            (s.readX r.s + BitVec.ofNat 64 (remaining s r))).complete)

/-- With nothing remaining, CPYFM and CPYFE complete with no access to memory and change only pc, unless a zero
size is checked against the wrong option or the parameters are rejected (R85, R86, R96). That size 0 forces the
choice 0 is log entry 23. -/
def Obligations.MainAndEpilogueOfZeroSize : Prop :=
  ∀ (sz : BitVec 2) (op2 : BitVec 4) (rs rn rd : BitVec 5) (s : State) (r : CopyRegs),
    checks s sz rs rn rd = .run r → s.readX r.n = 0#64 →
    (s.now.zeroSizeCheck = false ∨ s.flags.c = !s.now.optionA) →
    (s.now.illformedM = false → exec (.cpyfm sz op2 rs rn rd) s = .next s.complete) ∧
    (s.now.illformedE = false → exec (.cpyfe sz op2 rs rn rd) s = .next s.complete)

/-- The option test: the size is not zero or a zero size is checked too, and C is 1 under option A or 0 under
option B; nothing changes but the recorded fault (R85, R86, R132 (a)). The recorded fault is log entry 11. -/
def Obligations.WrongOptionRaisesMismatch : Prop :=
  ∀ (sz : BitVec 2) (op2 : BitVec 4) (rs rn rd : BitVec 5) (s : State) (r : CopyRegs),
    checks s sz rs rn rd = .run r →
    (s.now.zeroSizeCheck = true ∨ s.readX r.n ≠ 0#64) → s.flags.c = s.now.optionA →
    exec (.cpyfm sz op2 rs rn rd) s =
      .next (s.raise (.memCopyMismatch ⟨s.now.optionA, r.d, r.s, r.n, true, false, op2⟩)) ∧
    exec (.cpyfe sz op2 rs rn rd) s =
      .next (s.raise (.memCopyMismatch ⟨s.now.optionA, r.d, r.s, r.n, true, true, op2⟩))

/-- Rejected parameters, where the option test passes: in CPYFM as drawn or an option A size above zero; in
CPYFE also a size that is not what is left to an epilogue (R85, R86, R89 (I), R132 (b), (c)). The recorded fault
is log entry 11, the forced answer log entry 23. -/
def Obligations.RejectedParametersRaiseMismatch : Prop :=
  ∀ (sz : BitVec 2) (op2 : BitVec 4) (rs rn rd : BitVec 5) (s : State) (r : CopyRegs),
    checks s sz rs rn rd = .run r →
    ((s.now.zeroSizeCheck = false ∧ s.readX r.n = 0#64) ∨ s.flags.c = !s.now.optionA) →
    (s.now.illformedM = true ∨ (s.now.optionA = true ∧ (s.readX r.n).toInt > 0) →
      exec (.cpyfm sz op2 rs rn rd) s =
        .next (s.raise (.memCopyMismatch ⟨s.now.optionA, r.d, r.s, r.n, false, false, op2⟩))) ∧
    (s.readX r.n ≠ s.post r ∨ s.now.illformedE = true ∨ (s.now.optionA = true ∧ (s.readX r.n).toInt > 0) →
      exec (.cpyfe sz op2 rs rn rd) s =
        .next (s.raise (.memCopyMismatch ⟨s.now.optionA, r.d, r.s, r.n, false, true, op2⟩)))

/-- The frame of CPYFM and CPYFE, however they end: the flags, registers other than Xd, Xs, Xn (under option A other
than Xn), control state, and every byte outside the destination of the stage, which for CPYFM is what remains but
for the bytes left to the epilogue, and for CPYFE all that remains (R85, R86, R90, R91). -/
def Obligations.MainAndEpilogueFrame : Prop :=
  ∀ (sz : BitVec 2) (op2 : BitVec 4) (rs rn rd : BitVec 5) (s t : State) (i : Instr),
    i = .cpyfm sz op2 rs rn rd ∨ i = .cpyfe sz op2 rs rn rd →
    exec i s = .next t →
    t.flags = s.flags ∧
    (∀ j : RegNum, j.val ≠ rd.toNat → j.val ≠ rs.toNat → j.val ≠ rn.toNat → t.readX j = s.readX j) ∧
    (s.now.optionA = true → ∀ j : RegNum, j.val ≠ rn.toNat → t.readX j = s.readX j) ∧
    sameControl s t ∧
    (∀ r, checks s sz rs rn rd = .run r →
      (i = .cpyfm sz op2 rs rn rd →
        ∀ a, outside (nextDest s r) (remaining s r - leftForEpilogue s r) a → t.byte a = s.byte a) ∧
      (i = .cpyfe sz op2 rs rn rd → ∀ a, outside (nextDest s r) (remaining s r) a → t.byte a = s.byte a)) ∧
    ((∀ r, checks s sz rs rn rd ≠ .run r) → t.mem = s.mem ∧ t.x = s.x)

/-- A MemoryFault of CPYFM or CPYFE leaves memory and registers as after the blocks before it, in the format of
the option, and the flags and pc as they were (R90, R133; the per-block write-back is the reading of
92_eei_decisions.md D13 item 8, log entry 19). The recorded fault is log entry 11, the unchanged bytes of the
faulting block log entry 24. -/
def Obligations.MainAndEpilogueMemoryFault : Prop :=
  ∀ (sz : BitVec 2) (op2 : BitVec 4) (rs rn rd : BitVec 5) (s t : State) (i : Instr) (f : FaultInfo) (addr : Word)
    (n : Nat) (acc : AccDesc),
    i = .cpyfm sz op2 rs rn rd ∨ i = .cpyfe sz op2 rs rn rd →
    exec i s = .next t → s.fault = none → t.fault = some (.memoryFault f addr n acc) →
    ∃ r bs, checks s sz rs rn rd = .run r ∧ blocksOf s.cfg.blockLimit bs.sum bs ∧ 1 ≤ n ∧ n ≤ s.cfg.blockLimit ∧
      (i = .cpyfm sz op2 rs rn rd → bs.sum + n ≤ remaining s r - leftForEpilogue s r) ∧
      (i = .cpyfe sz op2 rs rn rd → bs.sum + n ≤ remaining s r) ∧
      BlockFaults (afterBlocks s r bs) t (nextSource s r + BitVec.ofNat 64 bs.sum)
        (nextDest s r + BitVec.ofNat 64 bs.sum) n (s.readDesc op2) (s.writeDesc op2)

/-! ### Rules about every instruction -/

/-- What an instruction may end in, and when (R97, R130 to R134): it is refused only where the checks and tests pass
and the destination of its stage meets the text; it completes only as a no-operation or where they pass; it records
Undefined only in the case the checks answer, MemoryFault only where they pass and its bytes cannot be copied, and
MemCopyMismatch with the registers of the checks and for the test that fails. The recorded fault is log entry 11, the
refusal log entry 16. -/
def Obligations.OutcomesOfEachInstruction : Prop :=
  ∀ (i : Instr) (s : State), s.fault = none →
    (exec i s = .refused .destinationInProgramText ∧ ∃ r, checksOf i s = .run r ∧ testsPass i s r ∧
      ¬ s.clearOfText (stageDest i s r) (stageBytes i s r)) ∨
    ∃ t, exec i s = .next t ∧
      ((t.fault = none ∧ (checksOf i s = .nop ∨ ∃ r, checksOf i s = .run r ∧ testsPass i s r)) ∨
       (∃ c, t.fault = some (.undefined c) ∧ checksOf i s = .undef c) ∨
       (∃ r f addr n acc, t.fault = some (.memoryFault f addr n acc) ∧ checksOf i s = .run r ∧ testsPass i s r ∧
        ¬ s.canCopy (optionsOf i) (stageSource i s r) (stageDest i s r) (stageBytes i s r)) ∨
       (∃ r w, checksOf i s = .run r ∧
        ((∃ sz op2 rs rn rd, i = .cpyfm sz op2 rs rn rd ∧
          t.fault = some (.memCopyMismatch ⟨s.now.optionA, r.d, r.s, r.n, w, false, op2⟩) ∧
          (w = true → optionMismatch r s = true) ∧
          (w = false → optionMismatch r s = false ∧ mainRejects s r)) ∨
         (∃ sz op2 rs rn rd, i = .cpyfe sz op2 rs rn rd ∧
          t.fault = some (.memCopyMismatch ⟨s.now.optionA, r.d, r.s, r.n, w, true, op2⟩) ∧
          (w = true → optionMismatch r s = true) ∧
          (w = false → optionMismatch r s = false ∧ epilogueRejects s r)))))

/-- Undefined and MemCopyMismatch are precise: nothing changes but the recorded fault (R90, R144). The recorded
fault is log entry 11. -/
def Obligations.UndefinedAndMismatchArePrecise : Prop :=
  ∀ (i : Instr) (s t : State) (f : Fault), exec i s = .next t → s.fault = none → t.fault = some f →
    ((∃ c, f = .undefined c) ∨ ∃ rec, f = .memCopyMismatch rec) → t = s.raise f

/-- pc advances by 4 modulo 2^64 where the instruction completes, and stays where it raises (R22, R92, R135).
The recorded fault is log entry 11, the advance modulo 2^64 log entry 15. -/
def Obligations.ProgramCounterRule : Prop :=
  ∀ (i : Instr) (s t : State), exec i s = .next t → s.fault = none →
    (t.fault = none → t.pc = s.pc + 4#64) ∧ (t.fault ≠ none → t.pc = s.pc)

/-- The flags: CPYFP that copies and completes sets 0000 under option A and 0010 under option B; a CPYFP that
raises or is a no-operation, and CPYFM and CPYFE, leave them (R23, R84, R91). R91 is marked derived by the spec
for CPYFM and CPYFE. -/
def Obligations.FlagRule : Prop :=
  ∀ (s t : State) (sz : BitVec 2) (op2 : BitVec 4) (rs rn rd : BitVec 5), s.fault = none →
    (exec (.cpyfp sz op2 rs rn rd) s = .next t →
      (∀ r, checks s sz rs rn rd = .run r → t.fault = none →
        t.flags.nzcv = if s.now.optionA then 0b0000#4 else 0b0010#4) ∧
      (((∀ r, checks s sz rs rn rd ≠ .run r) ∨ t.fault ≠ none) → t.flags = s.flags)) ∧
    (exec (.cpyfm sz op2 rs rn rd) s = .next t → t.flags = s.flags) ∧
    (exec (.cpyfe sz op2 rs rn rd) s = .next t → t.flags = s.flags)

/-- No step writes PSTATE.EL, PSTATE.UAO, HCR_EL2, the program text, or the machine's parameters (R24, R25, R26,
R54). The text, configuration and platform as constant data are log entries 4, 8 and 10. -/
def Obligations.NoStepWritesControlState : Prop :=
  ∀ s t : State, step s = .next t → sameControl s t

/-- No instruction changes a byte of memory at an address that the program text occupies (R54, R160 (L3)). The
refusal that keeps them is log entry 16. -/
def Obligations.BytesUnderTheTextStay : Prop :=
  ∀ (i : Instr) (s t : State) (a : Word), exec i s = .next t → s.text.find a.toNat ≠ none → t.byte a = s.byte a

/-- The invariant of Safety.lean holds at reset (R160, log entries 2 to 4). The values at reset are the model's
choice. -/
def Obligations.ResetMeetsInvariant : Prop := State.reset.inv = true

/-- Every step keeps the invariant: memory stays canonical, the text ordered, pc a multiple of 4, and a recorded
fault says what R132 and R133 let it say. The canonical form of memory is log entry 3, the text log entry 4, the
recorded fault log entry 11. -/
def Obligations.StepKeepsInvariant : Prop :=
  ∀ s t : State, s.inv = true → step s = .next t → t.inv = true

/-! ### The copy as a whole -/

/-- Where the ranges do not overlap, or the source lies at or above the destination, each of the three puts the
source's bytes in the destination and leaves every other byte (R56, R84, R85, R86). R56 is marked derived by the
spec. -/
def Obligations.StagesCopyForward : Prop :=
  ∀ (sz : BitVec 2) (op2 : BitVec 4) (rs rn rd : BitVec 5) (s t : State) (r : CopyRegs),
    checks s sz rs rn rd = .run r → s.fault = none → t.fault = none →
    (exec (.cpyfp sz op2 rs rn rd) s = .next t → copiesForward (s.readX r.s) (s.readX r.d) (prologueBytes s r) →
      (∀ i, i < prologueBytes s r → t.byte (s.readX r.d + BitVec.ofNat 64 i) = s.byte (s.readX r.s + BitVec.ofNat 64 i)) ∧
      ∀ a, outside (s.readX r.d) (prologueBytes s r) a → t.byte a = s.byte a) ∧
    (exec (.cpyfm sz op2 rs rn rd) s = .next t →
      copiesForward (nextSource s r) (nextDest s r) (remaining s r - leftForEpilogue s r) →
      (∀ i, i < remaining s r - leftForEpilogue s r →
        t.byte (nextDest s r + BitVec.ofNat 64 i) = s.byte (nextSource s r + BitVec.ofNat 64 i)) ∧
      ∀ a, outside (nextDest s r) (remaining s r - leftForEpilogue s r) a → t.byte a = s.byte a) ∧
    (exec (.cpyfe sz op2 rs rn rd) s = .next t →
      copiesForward (nextSource s r) (nextDest s r) (remaining s r) →
      (∀ i, i < remaining s r →
        t.byte (nextDest s r + BitVec.ofNat 64 i) = s.byte (nextSource s r + BitVec.ofNat 64 i)) ∧
      ∀ a, outside (nextDest s r) (remaining s r) a → t.byte a = s.byte a)

/-- An instruction whose next source byte is its next destination byte leaves every byte of memory, whatever the blocks
and however it ends (R56 (c)). R56 (c) is marked derived by the spec. -/
def Obligations.CopyOntoItselfChangesNoByte : Prop :=
  ∀ (i : Instr) (s t : State) (r : CopyRegs),
    checksOf i s = .run r → stageSource i s r = stageDest i s r → exec i s = .next t → ∀ a, t.byte a = s.byte a

/-- CPYFP establishes the format of the option it ran under and records it in C; CPYFM and CPYFE keep the format
they find, with the bytes they moved taken off (R93). R93 is marked derived by the spec in part. -/
def Obligations.FormatsAreEstablishedAndKept : Prop :=
  ∀ (sz : BitVec 2) (op2 : BitVec 4) (rs rn rd : BitVec 5) (s t : State) (r : CopyRegs),
    checks s sz rs rn rd = .run r → s.fault = none → t.fault = none →
    (exec (.cpyfp sz op2 rs rn rd) s = .next t →
      t.flags.c = !s.now.optionA ∧
      t.inFormat s.now.optionA r (s.readX r.s) (s.readX r.d) (saturate (s.readX r.n)).toNat
        ((saturate (s.readX r.n)).toNat - prologueBytes s r)) ∧
    (∀ (src dst : Word) (l rest : Nat), rest ≤ l → l < 2 ^ 63 → s.inFormat s.now.optionA r src dst l rest →
      (exec (.cpyfm sz op2 rs rn rd) s = .next t →
        leftForEpilogue s r ≤ rest ∧ t.inFormat s.now.optionA r src dst l (leftForEpilogue s r)) ∧
      (exec (.cpyfe sz op2 rs rn rd) s = .next t → t.inFormat s.now.optionA r src dst l 0))

/-- The three instructions one after another on the same registers, under the premises of R94 (the coherent draws
are SEQ_COHERENT of 92_eei_decisions.md D10): registers, flags and pc end as R94 says, the whole saturated size is
copied where the ranges do not wrap and no overlap spoils it, and no other byte changes. R94 is marked derived by the
spec. -/
def Obligations.SequenceCopiesTheWholeSize : Prop :=
  ∀ (op2 : BitVec 4) (rs rn rd : BitVec 5) (s : State) (r : CopyRegs) (d0 d1 d2 : Draws) (rest : List Draws),
    checks s 0#2 rs rn rd = .run r → s.fault = none → s.draws = d0 :: d1 :: d2 :: rest →
    d1.optionA = d0.optionA → d2.optionA = d0.optionA →
    d1.illformedM = false → d2.illformedE = false →
    s.canCopy op2 (s.readX r.s) (s.readX r.d) (saturate (s.readX r.n)).toNat →
    ∃ s1 s2, exec (.cpyfp 0#2 op2 rs rn rd) s = .next s1 ∧ exec (.cpyfm 0#2 op2 rs rn rd) s1 = .next s2 ∧
      (d2.postSize = s2.readX r.n →
        ∃ t, exec (.cpyfe 0#2 op2 rs rn rd) s2 = .next t ∧
          t.fault = none ∧ t.pc = s.pc + 12#64 ∧
          t.readX r.d = s.readX r.d + saturate (s.readX r.n) ∧
          t.readX r.s = s.readX r.s + saturate (s.readX r.n) ∧ t.readX r.n = 0#64 ∧
          (∀ j, j ≠ r.d → j ≠ r.s → j ≠ r.n → t.readX j = s.readX j) ∧
          t.flags = ⟨false, false, !d0.optionA, false⟩ ∧ sameControl s t ∧
          (copiesForward (s.readX r.s) (s.readX r.d) (saturate (s.readX r.n)).toNat →
            ∀ i, i < (saturate (s.readX r.n)).toNat →
              t.byte (s.readX r.d + BitVec.ofNat 64 i) = s.byte (s.readX r.s + BitVec.ofNat 64 i)) ∧
          ∀ a, outside (s.readX r.d) (saturate (s.readX r.n)).toNat a → t.byte a = s.byte a)

/-! ### What the whole rules add -/

/-- The checks of an instruction of the three rows answer an Undefined where the feature is absent or sz is not 00, and
of the state only HAVE_MOPS is looked at to find so (R64, for the instructions of R62 and R63). What raising Undefined
does is FeatureAndSizeFieldTestsComeFirst. -/
def Obligations.UndefinedEncodingsOfTheClass : Prop :=
  ∀ (i : Instr) (s : State), s.cfg.haveMops = false ∨ sizeFieldOf i ≠ 0b00#2 →
    ∃ c, checksOf i s = .undef c ∧ ∀ t : State, t.cfg.haveMops = s.cfg.haveMops → checksOf i t = .undef c

/-- PSTATE.UAO (R25): without the extension it is not looked at; with it, 1 makes both accesses privileged exactly
outside EL0, for any options; no instruction writes it; and for the encodings in scope it changes no result. -/
def Obligations.UaoRule : Prop :=
  (∀ (s : State) (options : BitVec 4) (b : Bool), s.cfg.haveUao = false →
    ({ s with uao := b } : State).readDesc options = s.readDesc options ∧
    ({ s with uao := b } : State).writeDesc options = s.writeDesc options) ∧
  (∀ (s : State) (options : BitVec 4), s.cfg.haveUao = true → s.uao = true →
    ((s.readDesc options).privileged = true ↔ s.el ≠ .el0) ∧
    ((s.writeDesc options).privileged = true ↔ s.el ≠ .el0)) ∧
  (∀ (i : Instr) (s t : State), exec i s = .next t → t.uao = s.uao) ∧
  (∀ (i : Instr) (s : State) (b : Bool), i.wf = true →
    exec i { s with uao := b } =
      match exec i s with
      | .next t => .next { t with uao := b }
      | .fault f => .fault f
      | .refused r => .refused r)

/-- Where an instruction comes to copy something and the platform faults the read of its first block, or admits the
read and then faults the write, it ends in that MemoryFault, with nothing of the block written (R47, R90, R133). The
recorded fault is log entry 11, the unchanged bytes log entry 24. -/
def Obligations.FirstFailingAccessRaisesMemoryFault : Prop :=
  ∀ (i : Instr) (s : State) (r : CopyRegs) (n : Nat) (f : FaultInfo),
    checksOf i s = .run r → testsPass i s r → 1 ≤ stageBytes i s r → n = s.blockSize 0 (stageBytes i s r) →
    (s.memFault (stageSource i s r) n (s.readDesc (optionsOf i)) = some f →
      exec i s = .next (s.raise (.memoryFault f (stageSource i s r) n (s.readDesc (optionsOf i))))) ∧
    (s.memFault (stageSource i s r) n (s.readDesc (optionsOf i)) = none →
      s.access.memFault (stageDest i s r) n (s.writeDesc (optionsOf i)) = some f →
      exec i s = .next (s.access.raise (.memoryFault f (stageDest i s r) n (s.writeDesc (optionsOf i)))))

/-- The platform may answer one and the same access differently as the memory system's state changes: for any one
state of it, its bytes and its accesses performed, any answer to any access is some platform's, which answers as
before wherever another number of accesses is performed (R47, R160 (L5)). Log entry 10. -/
def Obligations.PlatformAnswerMayVaryWithMemorySystem : Prop :=
  ∀ (p : Platform) (m : Memory) (performed : Nat) (addr : Word) (n : Nat) (acc : AccDesc) (a : Option FaultInfo),
    ∃ q : Platform, q.memFault m performed addr n acc = a ∧
      ∀ m' performed' addr' n' acc', performed' ≠ performed →
        q.memFault m' performed' addr' n' acc' = p.memFault m' performed' addr' n' acc'

/-- Declared ranges that hold the source and the destination with their rights admit the copy, into whatever blocks it
is cut (R47, R94 (v)). Log entry 10. -/
def Obligations.DeclaredRangesAdmitTheCopy : Prop :=
  ∀ (s : State) (options : BitVec 4) (src dst : Word) (k : Nat) (g h : Region),
    s.platform.answers = [] → g ∈ s.platform.regions → h ∈ s.platform.regions →
    g.permits (s.readDesc options) = true → h.permits (s.writeDesc options) = true →
    (∀ i, i < k → g.base ≤ (src + BitVec.ofNat 64 i).toNat ∧ (src + BitVec.ofNat 64 i).toNat < g.base + g.size) →
    (∀ i, i < k → h.base ≤ (dst + BitVec.ofNat 64 i).toNat ∧ (dst + BitVec.ofNat 64 i).toNat < h.base + h.size) →
    s.clearOfText dst k → s.canCopy options src dst k

/-- MOPS_ENABLED is evaluated on the launch state: any number of steps later it has the value of the launch, and so
have EL, UAO, HCR_EL2, the text, the configuration and the platform (R5, R160 (L3), (L4), (L5)). Log entry 7. -/
def Obligations.LaunchValuesHoldThroughTheRun : Prop :=
  ∀ (k : Nat) (s t : State), Sys2Proof.core.run k s = .next t → sameControl s t

/-- The ends of a run (R167): final only at the end address with no fault recorded, faulted only with that fault
recorded, refused only where the step from there is refused. That the end address is looked at before the step
is log entry 29. -/
def Obligations.RunEndsInItsThreeWays : Prop :=
  ∀ (e : Word) (fuel : Nat) (s t : State),
    (runTo e fuel s = .final t → t.pc = e ∧ t.fault = none) ∧
    (∀ f, runTo e fuel s = .faulted f t → t.fault = some f) ∧
    (∀ r, runTo e fuel s = .refused r t → t.fault = none ∧ step t = .refused r ∧ t.final e = false) ∧
    (s.pc = e → s.fault = none → runTo e fuel s = .final s)

/-- A program of k instructions placed at a, of which each completes, ends its run at a + 4 k (R22, R167). That
the end address is looked at before the step is log entry 29. -/
def Obligations.CompletedProgramIsFinalAtItsEnd : Prop :=
  ∀ (k : Nat) (s t : State), 4 * k < 2 ^ 64 → s.fault = none → Sys2Proof.core.run k s = .next t → t.fault = none →
    t.pc = programEnd s.pc k ∧ runTo (programEnd s.pc k) k s = .final t
end

