-- ==== Sys2Proof/Laws/Decode.lean ====
section
/-! SUPPORT. Laws of the encoding: the fields of a packed word, and words as bytes. -/

namespace Sys2Proof

/-- The fields of the word that `packWord` lays out (R61). -/
theorem packWord_fields (op1 sz : BitVec 2) (op2 : BitVec 4) (rs rn rd : BitVec 5) :
    (packWord op1 sz op2 rs rn rd).extractLsb' 30 2 = sz ∧
    (packWord op1 sz op2 rs rn rd).extractLsb' 24 6 = 0b011001#6 ∧
    (packWord op1 sz op2 rs rn rd).extractLsb' 22 2 = op1 ∧
    (packWord op1 sz op2 rs rn rd).extractLsb' 21 1 = 0#1 ∧
    (packWord op1 sz op2 rs rn rd).extractLsb' 16 5 = rs ∧
    (packWord op1 sz op2 rs rn rd).extractLsb' 12 4 = op2 ∧
    (packWord op1 sz op2 rs rn rd).extractLsb' 10 2 = 0b01#2 ∧
    (packWord op1 sz op2 rs rn rd).extractLsb' 5 5 = rn ∧
    (packWord op1 sz op2 rs rn rd).extractLsb' 0 5 = rd := by
  unfold packWord
  refine ⟨?_, ?_, ?_, ?_, ?_, ?_, ?_, ?_, ?_⟩ <;>
  · apply BitVec.eq_of_getLsbD_eq
    intro i hi
    interval_cases i <;> simp only [BitVec.getLsbD_extractLsb', BitVec.getLsbD_append] <;> simp

/-- The bytes of a word make the word again (R60). -/
theorem wordOfBytes_bytesOfWord (w : BitVec 32) :
    wordOfBytes (w.extractLsb' 0 8) (w.extractLsb' 8 8) (w.extractLsb' 16 8) (w.extractLsb' 24 8) = w := by
  apply BitVec.eq_of_getLsbD_eq
  intro i hi
  unfold wordOfBytes
  interval_cases i <;> simp only [BitVec.getLsbD_extractLsb', BitVec.getLsbD_append] <;> simp

/-- A packed word under the mask of R63 is its `op1` and the constant bits. -/
theorem packWord_masked (op1 sz : BitVec 2) (rs rn rd : BitVec 5) :
    packWord op1 sz 0#4 rs rn rd &&& rowMask = packWord op1 0#2 0#4 0#5 0#5 0#5 := by
  unfold packWord rowMask
  apply BitVec.eq_of_getLsbD_eq
  intro i hi
  interval_cases i <;> simp only [BitVec.getLsbD_and, BitVec.getLsbD_append] <;> simp

end Sys2Proof
end

