-- ==== Sys2Proof/Laws/Memory.lean ====
section
/-! SUPPORT. Laws of memory: what a read gives after a write, and that every operation keeps the canonical
form. -/

namespace Sys2Proof.Machine

/-! ### One cell -/

theorem Memory.find_insert (m : Memory) (a b : Nat) (v : Byte) :
    (m.insert a v).find b = if b = a then some v else m.find b := by
  induction m with
  | nil => simp [Memory.insert, Memory.find]
  | cons c rest ih =>
    obtain ⟨k, w⟩ := c
    simp only [Memory.insert]
    split
    · simp [Memory.find]
    · split
      · rename_i h; subst h
        by_cases hb : b = a <;> simp [Memory.find, hb]
      · rename_i h1 h2
        simp only [Memory.find, ih]
        by_cases hb : b = a
        · subst hb; simp [h2]
        · simp [hb]

theorem Memory.find_erase (m : Memory) (a b : Nat) :
    (m.erase a).find b = if b = a then none else m.find b := by
  induction m with
  | nil => simp [Memory.erase, Memory.find]
  | cons c rest ih =>
    obtain ⟨k, w⟩ := c
    simp only [Memory.erase]
    split
    · rename_i h; subst h
      rw [ih]
      by_cases hb : b = a <;> simp [Memory.find, hb]
    · rename_i h1
      simp only [Memory.find, ih]
      by_cases hb : b = a
      · subst hb; simp [h1]
      · simp [hb]

theorem Memory.read_write (m : Memory) (a b : Nat) (v : Byte) :
    (m.write a v).read b = if b = a then v else m.read b := by
  unfold Memory.write Memory.read
  split
  · rename_i h
    rw [Memory.find_erase]
    by_cases hb : b = a <;> simp [hb, h]
  · rw [Memory.find_insert]
    by_cases hb : b = a <;> simp [hb]

/-! ### The canonical form -/

theorem Memory.above_insert {m : Memory} {lo a : Nat} {v : Byte} (h : m.above lo = true) (ha : lo < a) :
    (m.insert a v).above lo = true := by
  induction m with
  | nil => simp [Memory.insert, Memory.above, ha]
  | cons c rest ih =>
    obtain ⟨k, w⟩ := c
    simp only [Memory.above, Bool.and_eq_true, decide_eq_true_eq] at h
    simp only [Memory.insert]
    split
    · simp [Memory.above, ha, h]
    · split
      · simp [Memory.above, ha, h]
      · simp [Memory.above, h, ih h.2]

theorem Memory.above_erase {m : Memory} {lo : Nat} (a : Nat) (h : m.above lo = true) :
    (m.erase a).above lo = true := by
  induction m with
  | nil => rfl
  | cons c rest ih =>
    obtain ⟨k, w⟩ := c
    simp only [Memory.above, Bool.and_eq_true, decide_eq_true_eq] at h
    simp only [Memory.erase]
    split
    · exact ih h.2
    · simp [Memory.above, h, ih h.2]

theorem Memory.above_mono {m : Memory} {lo lo' : Nat} (h : m.above lo = true) (hl : lo' ≤ lo) :
    m.above lo' = true := by
  induction m with
  | nil => rfl
  | cons c rest ih =>
    obtain ⟨k, w⟩ := c
    simp only [Memory.above, Bool.and_eq_true, decide_eq_true_eq] at h ⊢
    exact ⟨by omega, ih h.2⟩

theorem Memory.ordered_insert {m : Memory} {a : Nat} {v : Byte} (h : m.ordered = true) (ha : a < 2 ^ 64) :
    (m.insert a v).ordered = true := by
  induction m with
  | nil => simpa [Memory.insert, Memory.ordered, Memory.above] using ha
  | cons c rest ih =>
    obtain ⟨k, w⟩ := c
    simp only [Memory.ordered, Bool.and_eq_true, decide_eq_true_eq] at h
    obtain ⟨⟨hk, hab⟩, ho⟩ := h
    simp only [Memory.insert]
    split
    · rename_i hlt
      simp only [Memory.ordered, Memory.above, Bool.and_eq_true, decide_eq_true_eq]
      exact ⟨⟨ha, hlt, Memory.above_mono hab (by omega)⟩, ⟨hk, hab⟩, ho⟩
    · split
      · rename_i heq
        subst heq
        simp only [Memory.ordered, Bool.and_eq_true, decide_eq_true_eq]
        exact ⟨⟨ha, hab⟩, ho⟩
      · simp only [Memory.ordered, Bool.and_eq_true, decide_eq_true_eq]
        exact ⟨⟨hk, Memory.above_insert hab (by omega)⟩, ih ho⟩

theorem Memory.ordered_erase {m : Memory} (a : Nat) (h : m.ordered = true) : (m.erase a).ordered = true := by
  induction m with
  | nil => rfl
  | cons c rest ih =>
    obtain ⟨k, w⟩ := c
    simp only [Memory.ordered, Bool.and_eq_true, decide_eq_true_eq] at h
    simp only [Memory.erase]
    split
    · exact ih h.2
    · simp only [Memory.ordered, Bool.and_eq_true, decide_eq_true_eq]
      exact ⟨⟨h.1.1, Memory.above_erase a h.1.2⟩, ih h.2⟩

theorem Memory.noDefaults_insert {m : Memory} (a : Nat) {v : Byte} (h : m.noDefaults = true)
    (hv : v ≠ Memory.unlisted) : (m.insert a v).noDefaults = true := by
  induction m with
  | nil => simp [Memory.insert, Memory.noDefaults, hv]
  | cons c rest ih =>
    obtain ⟨k, w⟩ := c
    simp only [Memory.noDefaults, Bool.and_eq_true, decide_eq_true_eq] at h
    simp only [Memory.insert]
    split
    · simp [Memory.noDefaults, hv, h]
    · split
      · simp [Memory.noDefaults, hv, h]
      · simp [Memory.noDefaults, h, ih h.2]

theorem Memory.noDefaults_erase {m : Memory} (a : Nat) (h : m.noDefaults = true) :
    (m.erase a).noDefaults = true := by
  induction m with
  | nil => rfl
  | cons c rest ih =>
    obtain ⟨k, w⟩ := c
    simp only [Memory.noDefaults, Bool.and_eq_true, decide_eq_true_eq] at h
    simp only [Memory.erase]
    split
    · exact ih h.2
    · simp [Memory.noDefaults, h, ih h.2]

/-- Writing a byte keeps the canonical form. -/
theorem Memory.wf_write {m : Memory} {a : Nat} (v : Byte) (h : m.wf = true) (ha : a < 2 ^ 64) :
    (m.write a v).wf = true := by
  simp only [Memory.wf, Bool.and_eq_true] at h ⊢
  unfold Memory.write
  split
  · exact ⟨Memory.ordered_erase a h.1, Memory.noDefaults_erase a h.2⟩
  · rename_i hv
    exact ⟨Memory.ordered_insert h.1 ha, Memory.noDefaults_insert a h.2 hv⟩

/-! ### Blocks -/

theorem byteAddr_lt (addr : Word) (i : Nat) : byteAddr addr i < 2 ^ 64 := (addr + BitVec.ofNat 64 i).isLt

theorem byteAddr_add (addr : Word) (k i : Nat) : byteAddr (addr + BitVec.ofNat 64 k) i = byteAddr addr (k + i) := by
  unfold byteAddr
  rw [BitVec.add_assoc, BitVec.ofNat_add]

@[simp] theorem byteAddr_zero (addr : Word) : byteAddr addr 0 = addr.toNat := by simp [byteAddr]

theorem byteAddr_toNat (addr : Word) (i : Nat) : byteAddr addr i = (addr.toNat + i) % 2 ^ 64 := by
  simp [byteAddr, BitVec.toNat_add]

/-- Two bytes of one access of at most 2^64 bytes have different addresses. -/
theorem byteAddr_inj {addr : Word} {i j : Nat} (hi : i < 2 ^ 64) (hj : j < 2 ^ 64)
    (h : byteAddr addr i = byteAddr addr j) : i = j := by
  have := addr.isLt
  rw [byteAddr_toNat, byteAddr_toNat] at h
  omega

@[simp] theorem Memory.length_readBlock (m : Memory) (addr : Word) (n : Nat) : (m.readBlock addr n).length = n := by
  simp [Memory.readBlock]

theorem Memory.getElem_readBlock (m : Memory) (addr : Word) (n i : Nat) (h : i < (m.readBlock addr n).length) :
    (m.readBlock addr n)[i] = m.read (byteAddr addr i) := by
  simp [Memory.readBlock]

/-- Writing a block keeps the canonical form. -/
theorem Memory.wf_writeBlock {m : Memory} (addr : Word) (v : List Byte) (h : m.wf = true) :
    (m.writeBlock addr v).wf = true := by
  induction v generalizing m addr with
  | nil => exact h
  | cons b rest ih => exact ih _ (Memory.wf_write b h addr.isLt)

/-- A byte outside the written block reads as before. -/
theorem Memory.read_writeBlock_outside {m : Memory} {addr : Word} {v : List Byte} {a : Nat}
    (h : ∀ i, i < v.length → a ≠ byteAddr addr i) : (m.writeBlock addr v).read a = m.read a := by
  induction v generalizing m addr with
  | nil => rfl
  | cons b rest ih =>
    have h0 : a ≠ addr.toNat := by simpa using h 0 (by simp)
    rw [Memory.writeBlock, ih, Memory.read_write, if_neg h0]
    intro i hi
    have := h (1 + i) (by simp; omega)
    rwa [← byteAddr_add] at this

/-- Byte `i` of the written block reads as byte `i` of the data. -/
theorem Memory.read_writeBlock_inside {m : Memory} {addr : Word} {v : List Byte} (hv : v.length ≤ 2 ^ 64)
    {i : Nat} (hi : i < v.length) : (m.writeBlock addr v).read (byteAddr addr i) = v[i] := by
  induction v generalizing m addr i with
  | nil => simp at hi
  | cons b rest ih =>
    simp only [List.length_cons] at hv hi
    cases i with
    | zero =>
      rw [Memory.writeBlock, Memory.read_writeBlock_outside, Memory.read_write]
      · simp
      · intro j hj e
        have e' : byteAddr addr 0 = byteAddr addr (1 + j) := by rw [← byteAddr_add]; exact e
        have := byteAddr_inj (by omega) (by omega) e'
        omega
    | succ k =>
      have e : byteAddr addr (k + 1) = byteAddr (addr + 1#64) k := by
        rw [Nat.add_comm, ← byteAddr_add]
      rw [Memory.writeBlock, e, ih (by omega) (by omega)]
      simp

/-! ### The program text -/

theorem Memory.ordered_placeText {text : Memory} (addr : Word) (v : List Byte) (h : text.ordered = true) :
    (text.placeText addr v).ordered = true := by
  induction v generalizing text addr with
  | nil => exact h
  | cons b rest ih => exact ih _ (Memory.ordered_insert h addr.isLt)

theorem Memory.meets_eq_false {text : Memory} {addr : Word} {n : Nat} :
    text.meets addr n = false ↔ ∀ i, i < n → text.find (byteAddr addr i) = none := by
  simp [Memory.meets]

end Sys2Proof.Machine
end

