-- ==== Sys2Proof/Laws/State.lean ====
section
/-! SUPPORT. What each update of the state leaves of each field. -/

namespace Sys2Proof.Machine

/-! ### Writing a register -/

@[simp] theorem State.writeX_flags (s : State) (i : RegNum) (v : Word) : (s.writeX i v).flags = s.flags := rfl
@[simp] theorem State.writeX_el (s : State) (i : RegNum) (v : Word) : (s.writeX i v).el = s.el := rfl
@[simp] theorem State.writeX_uao (s : State) (i : RegNum) (v : Word) : (s.writeX i v).uao = s.uao := rfl
@[simp] theorem State.writeX_hcr (s : State) (i : RegNum) (v : Word) : (s.writeX i v).hcr = s.hcr := rfl
@[simp] theorem State.writeX_pc (s : State) (i : RegNum) (v : Word) : (s.writeX i v).pc = s.pc := rfl
@[simp] theorem State.writeX_mem (s : State) (i : RegNum) (v : Word) : (s.writeX i v).mem = s.mem := rfl
@[simp] theorem State.writeX_text (s : State) (i : RegNum) (v : Word) : (s.writeX i v).text = s.text := rfl
@[simp] theorem State.writeX_fault (s : State) (i : RegNum) (v : Word) : (s.writeX i v).fault = s.fault := rfl
@[simp] theorem State.writeX_cfg (s : State) (i : RegNum) (v : Word) : (s.writeX i v).cfg = s.cfg := rfl
@[simp] theorem State.writeX_platform (s : State) (i : RegNum) (v : Word) : (s.writeX i v).platform = s.platform := rfl
@[simp] theorem State.writeX_mopsEnabled (s : State) (i : RegNum) (v : Word) :
    (s.writeX i v).mopsEnabled = s.mopsEnabled := rfl
@[simp] theorem State.writeX_performed (s : State) (i : RegNum) (v : Word) :
    (s.writeX i v).performed = s.performed := rfl
@[simp] theorem State.writeX_draws (s : State) (i : RegNum) (v : Word) : (s.writeX i v).draws = s.draws := rfl
@[simp] theorem State.writeX_drawn (s : State) (i : RegNum) (v : Word) : (s.writeX i v).drawn = s.drawn := rfl

theorem State.readX_writeX (s : State) (i j : RegNum) (v : Word) :
    (s.writeX i v).readX j = if j = i then v else s.readX j := by
  simp only [State.writeX, State.readX, Vector.get_eq_getElem, Vector.getElem_set]
  by_cases h : j = i
  · simp [h]
  · have : i.val ≠ j.val := fun e => h (Fin.ext e.symm)
    simp [h, this]

@[simp] theorem State.readX_writeX_same (s : State) (i : RegNum) (v : Word) : (s.writeX i v).readX i = v := by
  simp [State.readX_writeX]

theorem State.readX_writeX_other (s : State) {i j : RegNum} (v : Word) (h : j ≠ i) :
    (s.writeX i v).readX j = s.readX j := by
  simp [State.readX_writeX, h]

/-- Two states with the same registers, read one by one, have the same register file. -/
theorem State.x_ext {s t : State} (h : ∀ j, s.readX j = t.readX j) : s.x = t.x := by
  apply Vector.ext
  intro i hi
  simpa [State.readX, Vector.get_eq_getElem] using h ⟨i, hi⟩

@[simp] theorem State.writeX_writeX_same (s : State) (i : RegNum) (v w : Word) :
    (s.writeX i v).writeX i w = s.writeX i w := by
  have : ((s.writeX i v).writeX i w).x = (s.writeX i w).x := State.x_ext (fun j => by
    simp only [State.readX_writeX]; split <;> rfl)
  simp only [State.writeX] at this ⊢
  rw [this]

theorem State.writeX_comm (s : State) {i j : RegNum} (h : i ≠ j) (v w : Word) :
    (s.writeX i v).writeX j w = (s.writeX j w).writeX i v := by
  have : ((s.writeX i v).writeX j w).x = ((s.writeX j w).writeX i v).x := State.x_ext (fun k => by
    simp only [State.readX_writeX]
    by_cases h1 : k = j <;> by_cases h2 : k = i <;> simp_all)
  simp only [State.writeX] at this ⊢
  rw [this]

/-- Writing a register with the value it holds changes nothing. -/
@[simp] theorem State.writeX_readX (s : State) (i : RegNum) : s.writeX i (s.readX i) = s := by
  have : (s.writeX i (s.readX i)).x = s.x := State.x_ext (s := s.writeX i (s.readX i)) (t := s) (fun k => by
    rw [State.readX_writeX]; split <;> simp_all)
  simp only [State.writeX] at this ⊢
  rw [this]

/-! ### Completing -/

@[simp] theorem State.complete_x (s : State) : s.complete.x = s.x := rfl
@[simp] theorem State.complete_readX (s : State) (j : RegNum) : s.complete.readX j = s.readX j := rfl
@[simp] theorem State.complete_flags (s : State) : s.complete.flags = s.flags := rfl
@[simp] theorem State.complete_el (s : State) : s.complete.el = s.el := rfl
@[simp] theorem State.complete_uao (s : State) : s.complete.uao = s.uao := rfl
@[simp] theorem State.complete_hcr (s : State) : s.complete.hcr = s.hcr := rfl
@[simp] theorem State.complete_pc (s : State) : s.complete.pc = s.pc + 4#64 := rfl
@[simp] theorem State.complete_mem (s : State) : s.complete.mem = s.mem := rfl
@[simp] theorem State.complete_text (s : State) : s.complete.text = s.text := rfl
@[simp] theorem State.complete_fault (s : State) : s.complete.fault = s.fault := rfl
@[simp] theorem State.complete_cfg (s : State) : s.complete.cfg = s.cfg := rfl
@[simp] theorem State.complete_platform (s : State) : s.complete.platform = s.platform := rfl
@[simp] theorem State.complete_mopsEnabled (s : State) : s.complete.mopsEnabled = s.mopsEnabled := rfl
@[simp] theorem State.complete_performed (s : State) : s.complete.performed = s.performed := rfl
@[simp] theorem State.complete_draws (s : State) : s.complete.draws = s.draws.tail := rfl
@[simp] theorem State.complete_drawn (s : State) : s.complete.drawn = s.drawn + 1 := rfl

/-! ### Raising -/

@[simp] theorem State.raise_x (s : State) (f : Fault) : (s.raise f).x = s.x := rfl
@[simp] theorem State.raise_readX (s : State) (f : Fault) (j : RegNum) : (s.raise f).readX j = s.readX j := rfl
@[simp] theorem State.raise_flags (s : State) (f : Fault) : (s.raise f).flags = s.flags := rfl
@[simp] theorem State.raise_el (s : State) (f : Fault) : (s.raise f).el = s.el := rfl
@[simp] theorem State.raise_uao (s : State) (f : Fault) : (s.raise f).uao = s.uao := rfl
@[simp] theorem State.raise_hcr (s : State) (f : Fault) : (s.raise f).hcr = s.hcr := rfl
@[simp] theorem State.raise_pc (s : State) (f : Fault) : (s.raise f).pc = s.pc := rfl
@[simp] theorem State.raise_mem (s : State) (f : Fault) : (s.raise f).mem = s.mem := rfl
@[simp] theorem State.raise_text (s : State) (f : Fault) : (s.raise f).text = s.text := rfl
@[simp] theorem State.raise_fault (s : State) (f : Fault) : (s.raise f).fault = some f := rfl
@[simp] theorem State.raise_cfg (s : State) (f : Fault) : (s.raise f).cfg = s.cfg := rfl
@[simp] theorem State.raise_platform (s : State) (f : Fault) : (s.raise f).platform = s.platform := rfl
@[simp] theorem State.raise_mopsEnabled (s : State) (f : Fault) : (s.raise f).mopsEnabled = s.mopsEnabled := rfl
@[simp] theorem State.raise_performed (s : State) (f : Fault) : (s.raise f).performed = s.performed := rfl
@[simp] theorem State.raise_draws (s : State) (f : Fault) : (s.raise f).draws = s.draws := rfl
@[simp] theorem State.raise_drawn (s : State) (f : Fault) : (s.raise f).drawn = s.drawn := rfl

/-! ### Writing the flags -/

@[simp] theorem State.setFlags_x (s : State) (f : Flags) : (s.setFlags f).x = s.x := rfl
@[simp] theorem State.setFlags_readX (s : State) (f : Flags) (j : RegNum) : (s.setFlags f).readX j = s.readX j := rfl
@[simp] theorem State.setFlags_flags (s : State) (f : Flags) : (s.setFlags f).flags = f := rfl
@[simp] theorem State.setFlags_el (s : State) (f : Flags) : (s.setFlags f).el = s.el := rfl
@[simp] theorem State.setFlags_uao (s : State) (f : Flags) : (s.setFlags f).uao = s.uao := rfl
@[simp] theorem State.setFlags_hcr (s : State) (f : Flags) : (s.setFlags f).hcr = s.hcr := rfl
@[simp] theorem State.setFlags_pc (s : State) (f : Flags) : (s.setFlags f).pc = s.pc := rfl
@[simp] theorem State.setFlags_mem (s : State) (f : Flags) : (s.setFlags f).mem = s.mem := rfl
@[simp] theorem State.setFlags_text (s : State) (f : Flags) : (s.setFlags f).text = s.text := rfl
@[simp] theorem State.setFlags_fault (s : State) (f : Flags) : (s.setFlags f).fault = s.fault := rfl
@[simp] theorem State.setFlags_cfg (s : State) (f : Flags) : (s.setFlags f).cfg = s.cfg := rfl
@[simp] theorem State.setFlags_platform (s : State) (f : Flags) : (s.setFlags f).platform = s.platform := rfl
@[simp] theorem State.setFlags_mopsEnabled (s : State) (f : Flags) : (s.setFlags f).mopsEnabled = s.mopsEnabled := rfl
@[simp] theorem State.setFlags_performed (s : State) (f : Flags) : (s.setFlags f).performed = s.performed := rfl
@[simp] theorem State.setFlags_draws (s : State) (f : Flags) : (s.setFlags f).draws = s.draws := rfl
@[simp] theorem State.setFlags_drawn (s : State) (f : Flags) : (s.setFlags f).drawn = s.drawn := rfl

/-! ### Replacing data memory -/

@[simp] theorem State.setMem_mem (s : State) (m : Memory) : (s.setMem m).mem = m := rfl
@[simp] theorem State.setMem_readX (s : State) (m : Memory) (j : RegNum) : (s.setMem m).readX j = s.readX j := rfl
@[simp] theorem State.setMem_x (s : State) (m : Memory) : (s.setMem m).x = s.x := rfl
@[simp] theorem State.setMem_flags (s : State) (m : Memory) : (s.setMem m).flags = s.flags := rfl
@[simp] theorem State.setMem_el (s : State) (m : Memory) : (s.setMem m).el = s.el := rfl
@[simp] theorem State.setMem_uao (s : State) (m : Memory) : (s.setMem m).uao = s.uao := rfl
@[simp] theorem State.setMem_hcr (s : State) (m : Memory) : (s.setMem m).hcr = s.hcr := rfl
@[simp] theorem State.setMem_pc (s : State) (m : Memory) : (s.setMem m).pc = s.pc := rfl
@[simp] theorem State.setMem_text (s : State) (m : Memory) : (s.setMem m).text = s.text := rfl
@[simp] theorem State.setMem_fault (s : State) (m : Memory) : (s.setMem m).fault = s.fault := rfl
@[simp] theorem State.setMem_cfg (s : State) (m : Memory) : (s.setMem m).cfg = s.cfg := rfl
@[simp] theorem State.setMem_platform (s : State) (m : Memory) : (s.setMem m).platform = s.platform := rfl
@[simp] theorem State.setMem_mopsEnabled (s : State) (m : Memory) : (s.setMem m).mopsEnabled = s.mopsEnabled := rfl
@[simp] theorem State.setMem_performed (s : State) (m : Memory) : (s.setMem m).performed = s.performed := rfl
@[simp] theorem State.setMem_draws (s : State) (m : Memory) : (s.setMem m).draws = s.draws := rfl
@[simp] theorem State.setMem_drawn (s : State) (m : Memory) : (s.setMem m).drawn = s.drawn := rfl
@[simp] theorem State.setMem_now (s : State) (m : Memory) : (s.setMem m).now = s.now := rfl
@[simp] theorem State.setMem_setMem (s : State) (m m' : Memory) : (s.setMem m).setMem m' = s.setMem m' := rfl
@[simp] theorem State.setMem_same (s : State) : s.setMem s.mem = s := rfl

/-! ### Performing an access -/

@[simp] theorem State.access_x (s : State) : s.access.x = s.x := rfl
@[simp] theorem State.access_flags (s : State) : s.access.flags = s.flags := rfl
@[simp] theorem State.access_el (s : State) : s.access.el = s.el := rfl
@[simp] theorem State.access_uao (s : State) : s.access.uao = s.uao := rfl
@[simp] theorem State.access_hcr (s : State) : s.access.hcr = s.hcr := rfl
@[simp] theorem State.access_pc (s : State) : s.access.pc = s.pc := rfl
@[simp] theorem State.access_mem (s : State) : s.access.mem = s.mem := rfl
@[simp] theorem State.access_text (s : State) : s.access.text = s.text := rfl
@[simp] theorem State.access_fault (s : State) : s.access.fault = s.fault := rfl
@[simp] theorem State.access_cfg (s : State) : s.access.cfg = s.cfg := rfl
@[simp] theorem State.access_mopsEnabled (s : State) : s.access.mopsEnabled = s.mopsEnabled := rfl
@[simp] theorem State.access_platform (s : State) : s.access.platform = s.platform := rfl
@[simp] theorem State.access_draws (s : State) : s.access.draws = s.draws := rfl
@[simp] theorem State.access_drawn (s : State) : s.access.drawn = s.drawn := rfl
@[simp] theorem State.access_now (s : State) : s.access.now = s.now := rfl
@[simp] theorem State.access_performed (s : State) : s.access.performed = s.performed + 1 := rfl
@[simp] theorem State.access_readX (s : State) (j : RegNum) : s.access.readX j = s.readX j := rfl

/-! ### MemFault looks at the platform, the bytes and the accesses performed only -/

theorem State.memFault_congr {s t : State} (hp : t.platform = s.platform) (hm : t.mem = s.mem)
    (hk : t.performed = s.performed) (addr : Word) (n : Nat) (acc : AccDesc) :
    t.memFault addr n acc = s.memFault addr n acc := by
  simp [State.memFault, hp, hm, hk]

/-! ### Draws look at the state's list of draws only -/

@[simp] theorem State.writeX_now (s : State) (i : RegNum) (v : Word) : (s.writeX i v).now = s.now := rfl

theorem State.blockSize_congr {s t : State} (hd : t.draws = s.draws) (hn : t.drawn = s.drawn) (hc : t.cfg = s.cfg)
    (i left : Nat) : t.blockSize i left = s.blockSize i left := by
  simp [State.blockSize, State.rawBlock, State.now, hd, hn, hc]

end Sys2Proof.Machine
end

