-- ==== Sys2Proof/Laws/MemoryCopy.lean ====
section
/-! SUPPORT. What each shared operation of the memory copy can do, said once: one block, the two loops, the
copying part of an instruction. -/

namespace Sys2Proof.Machine

/-! ### Draws -/

theorem one_le_blockLimit (c : HwConfig) : 1 ≤ c.blockLimit := Nat.le_max_left _ _

/-- The block size that is used is admissible wherever something is left to copy. -/
theorem State.blockSize_admissible (s : State) (i : Nat) {left : Nat} (h : 1 ≤ left) :
    1 ≤ s.blockSize i left ∧ s.blockSize i left ≤ s.cfg.blockLimit ∧ s.blockSize i left ≤ left := by
  have := one_le_blockLimit s.cfg
  unfold State.blockSize
  split
  · rename_i hb
    simp only [blockAdmissible, Bool.and_eq_true, decide_eq_true_eq] at hb
    exact ⟨hb.1.1, hb.1.2, hb.2⟩
  · exact ⟨le_refl _, this, h⟩

/-! ### One block -/

/-- How a block that comes next in the state `t` stops the instruction: its read faults, its write faults, or its
destination meets the program text. -/
def BlockStops (t : State) (src dst : Word) (n : Nat) (racc wacc : AccDesc)
    (o : Host.Outcome State Fault Refusal) : Prop :=
  (∃ f, t.memFault src n racc = some f ∧ o = .next (t.raise (.memoryFault f src n racc)))
  ∨ (t.memFault src n racc = none
      ∧ ∃ f, t.access.memFault dst n wacc = some f ∧ o = .next (t.access.raise (.memoryFault f dst n wacc)))
  ∨ (t.memFault src n racc = none ∧ t.access.memFault dst n wacc = none ∧ t.text.meets dst n = true
      ∧ o = .refused .destinationInProgramText)

theorem moveBlock_cases (s : State) (src dst : Word) (n : Nat) (racc wacc : AccDesc) :
    moveBlock s src dst n racc wacc = .done (s.withBlocks src dst [n]) ()
    ∨ ∃ o, moveBlock s src dst n racc wacc = .ended o ∧ BlockStops s src dst n racc wacc o := by
  unfold moveBlock memRead
  cases hr : s.memFault src n racc with
  | some f => exact .inr ⟨_, rfl, .inl ⟨f, hr, rfl⟩⟩
  | none =>
    simp only [memWrite, Memory.length_readBlock, State.access_text, State.access_mem]
    cases hw : s.access.memFault dst n wacc with
    | some f => exact .inr ⟨_, rfl, .inr (.inl ⟨hr, f, hw, rfl⟩)⟩
    | none =>
      cases ht : s.text.meets dst n with
      | true => exact .inr ⟨_, by simp, .inr (.inr ⟨hr, hw, ht, rfl⟩)⟩
      | false => exact .inl rfl

/-! ### Blocks one after another -/

@[simp] theorem State.withBlocks_x (s : State) (src dst : Word) (bs : List Nat) :
    (s.withBlocks src dst bs).x = s.x := rfl
@[simp] theorem State.withBlocks_flags (s : State) (src dst : Word) (bs : List Nat) :
    (s.withBlocks src dst bs).flags = s.flags := rfl
@[simp] theorem State.withBlocks_el (s : State) (src dst : Word) (bs : List Nat) :
    (s.withBlocks src dst bs).el = s.el := rfl
@[simp] theorem State.withBlocks_uao (s : State) (src dst : Word) (bs : List Nat) :
    (s.withBlocks src dst bs).uao = s.uao := rfl
@[simp] theorem State.withBlocks_hcr (s : State) (src dst : Word) (bs : List Nat) :
    (s.withBlocks src dst bs).hcr = s.hcr := rfl
@[simp] theorem State.withBlocks_pc (s : State) (src dst : Word) (bs : List Nat) :
    (s.withBlocks src dst bs).pc = s.pc := rfl
@[simp] theorem State.withBlocks_text (s : State) (src dst : Word) (bs : List Nat) :
    (s.withBlocks src dst bs).text = s.text := rfl
@[simp] theorem State.withBlocks_fault (s : State) (src dst : Word) (bs : List Nat) :
    (s.withBlocks src dst bs).fault = s.fault := rfl
@[simp] theorem State.withBlocks_cfg (s : State) (src dst : Word) (bs : List Nat) :
    (s.withBlocks src dst bs).cfg = s.cfg := rfl
@[simp] theorem State.withBlocks_mopsEnabled (s : State) (src dst : Word) (bs : List Nat) :
    (s.withBlocks src dst bs).mopsEnabled = s.mopsEnabled := rfl
@[simp] theorem State.withBlocks_platform (s : State) (src dst : Word) (bs : List Nat) :
    (s.withBlocks src dst bs).platform = s.platform := rfl
@[simp] theorem State.withBlocks_draws (s : State) (src dst : Word) (bs : List Nat) :
    (s.withBlocks src dst bs).draws = s.draws := rfl
@[simp] theorem State.withBlocks_drawn (s : State) (src dst : Word) (bs : List Nat) :
    (s.withBlocks src dst bs).drawn = s.drawn := rfl
@[simp] theorem State.withBlocks_now (s : State) (src dst : Word) (bs : List Nat) :
    (s.withBlocks src dst bs).now = s.now := rfl
@[simp] theorem State.withBlocks_mem (s : State) (src dst : Word) (bs : List Nat) :
    (s.withBlocks src dst bs).mem = moveBlocks s.mem src dst bs := rfl
@[simp] theorem State.withBlocks_performed (s : State) (src dst : Word) (bs : List Nat) :
    (s.withBlocks src dst bs).performed = s.performed + 2 * bs.length := rfl
@[simp] theorem State.withBlocks_readX (s : State) (src dst : Word) (bs : List Nat) (j : RegNum) :
    (s.withBlocks src dst bs).readX j = s.readX j := rfl
@[simp] theorem State.withBlocks_nil (s : State) (src dst : Word) : s.withBlocks src dst [] = s := rfl

theorem moveBlocks_append (m : Memory) (src dst : Word) (bs cs : List Nat) :
    moveBlocks m src dst (bs ++ cs) =
      moveBlocks (moveBlocks m src dst bs) (src + BitVec.ofNat 64 bs.sum) (dst + BitVec.ofNat 64 bs.sum) cs := by
  induction bs generalizing m src dst with
  | nil => simp [moveBlocks]
  | cons b bs ih => simp [moveBlocks, ih, BitVec.ofNat_add, BitVec.add_assoc]

theorem State.withBlocks_append (s : State) (src dst : Word) (bs cs : List Nat) :
    (s.withBlocks src dst bs).withBlocks (src + BitVec.ofNat 64 bs.sum) (dst + BitVec.ofNat 64 bs.sum) cs =
      s.withBlocks src dst (bs ++ cs) := by
  simp only [State.withBlocks, moveBlocks_append, List.length_append, Nat.mul_add, Nat.add_assoc]

/-- One block and then the others. -/
theorem State.withBlocks_cons (s : State) (src dst : Word) (b : Nat) (bs : List Nat) :
    (s.withBlocks src dst [b]).withBlocks (src + BitVec.ofNat 64 b) (dst + BitVec.ofNat 64 b) bs =
      s.withBlocks src dst (b :: bs) := by
  simpa using s.withBlocks_append src dst [b] bs

/-! ### Write-back -/

theorem writeBackA_again (wb : Option CopyRegs) (v w : Word) (s : State) :
    writeBackA wb w (writeBackA wb v s) = writeBackA wb w s := by
  cases wb <;> simp [writeBackA]

theorem writeBackB_again (wb : Option CopyRegs) (t f z t' f' z' : Word) (s : State) :
    writeBackB wb t' f' z' (writeBackB wb t f z s) = writeBackB wb t' f' z' s := by
  cases wb with
  | none => rfl
  | some r =>
    have : (writeBackB (some r) t' f' z' (writeBackB (some r) t f z s)).x = (writeBackB (some r) t' f' z' s).x :=
      State.x_ext (fun j => by
        simp only [writeBackB, State.readX_writeX]
        split <;> [rfl; (split <;> [rfl; (split <;> [rfl; simp_all])])])
    simp only [writeBackB, State.writeX] at this ⊢
    rw [this]

theorem writeBackA_withBlocks (wb : Option CopyRegs) (v : Word) (s : State) (src dst : Word) (bs : List Nat) :
    (writeBackA wb v s).withBlocks src dst bs = writeBackA wb v (s.withBlocks src dst bs) := by
  cases wb <;> rfl

theorem writeBackB_withBlocks (wb : Option CopyRegs) (t f z : Word) (s : State) (src dst : Word) (bs : List Nat) :
    (writeBackB wb t f z s).withBlocks src dst bs = writeBackB wb t f z (s.withBlocks src dst bs) := by
  cases wb <;> rfl

@[simp] theorem writeBackA_flags (wb : Option CopyRegs) (v : Word) (s : State) :
    (writeBackA wb v s).flags = s.flags := by
  cases wb <;> rfl
@[simp] theorem writeBackB_flags (wb : Option CopyRegs) (t f z : Word) (s : State) :
    (writeBackB wb t f z s).flags = s.flags := by
  cases wb <;> rfl
@[simp] theorem writeBackA_el (wb : Option CopyRegs) (v : Word) (s : State) :
    (writeBackA wb v s).el = s.el := by
  cases wb <;> rfl
@[simp] theorem writeBackB_el (wb : Option CopyRegs) (t f z : Word) (s : State) :
    (writeBackB wb t f z s).el = s.el := by
  cases wb <;> rfl
@[simp] theorem writeBackA_uao (wb : Option CopyRegs) (v : Word) (s : State) :
    (writeBackA wb v s).uao = s.uao := by
  cases wb <;> rfl
@[simp] theorem writeBackB_uao (wb : Option CopyRegs) (t f z : Word) (s : State) :
    (writeBackB wb t f z s).uao = s.uao := by
  cases wb <;> rfl
@[simp] theorem writeBackA_hcr (wb : Option CopyRegs) (v : Word) (s : State) :
    (writeBackA wb v s).hcr = s.hcr := by
  cases wb <;> rfl
@[simp] theorem writeBackB_hcr (wb : Option CopyRegs) (t f z : Word) (s : State) :
    (writeBackB wb t f z s).hcr = s.hcr := by
  cases wb <;> rfl
@[simp] theorem writeBackA_pc (wb : Option CopyRegs) (v : Word) (s : State) :
    (writeBackA wb v s).pc = s.pc := by
  cases wb <;> rfl
@[simp] theorem writeBackB_pc (wb : Option CopyRegs) (t f z : Word) (s : State) :
    (writeBackB wb t f z s).pc = s.pc := by
  cases wb <;> rfl
@[simp] theorem writeBackA_mem (wb : Option CopyRegs) (v : Word) (s : State) :
    (writeBackA wb v s).mem = s.mem := by
  cases wb <;> rfl
@[simp] theorem writeBackB_mem (wb : Option CopyRegs) (t f z : Word) (s : State) :
    (writeBackB wb t f z s).mem = s.mem := by
  cases wb <;> rfl
@[simp] theorem writeBackA_text (wb : Option CopyRegs) (v : Word) (s : State) :
    (writeBackA wb v s).text = s.text := by
  cases wb <;> rfl
@[simp] theorem writeBackB_text (wb : Option CopyRegs) (t f z : Word) (s : State) :
    (writeBackB wb t f z s).text = s.text := by
  cases wb <;> rfl
@[simp] theorem writeBackA_fault (wb : Option CopyRegs) (v : Word) (s : State) :
    (writeBackA wb v s).fault = s.fault := by
  cases wb <;> rfl
@[simp] theorem writeBackB_fault (wb : Option CopyRegs) (t f z : Word) (s : State) :
    (writeBackB wb t f z s).fault = s.fault := by
  cases wb <;> rfl
@[simp] theorem writeBackA_cfg (wb : Option CopyRegs) (v : Word) (s : State) :
    (writeBackA wb v s).cfg = s.cfg := by
  cases wb <;> rfl
@[simp] theorem writeBackB_cfg (wb : Option CopyRegs) (t f z : Word) (s : State) :
    (writeBackB wb t f z s).cfg = s.cfg := by
  cases wb <;> rfl
@[simp] theorem writeBackA_platform (wb : Option CopyRegs) (v : Word) (s : State) :
    (writeBackA wb v s).platform = s.platform := by
  cases wb <;> rfl
@[simp] theorem writeBackA_mopsEnabled (wb : Option CopyRegs) (v : Word) (s : State) :
    (writeBackA wb v s).mopsEnabled = s.mopsEnabled := by
  cases wb <;> rfl
@[simp] theorem writeBackA_performed (wb : Option CopyRegs) (v : Word) (s : State) :
    (writeBackA wb v s).performed = s.performed := by
  cases wb <;> rfl
@[simp] theorem writeBackB_platform (wb : Option CopyRegs) (t f z : Word) (s : State) :
    (writeBackB wb t f z s).platform = s.platform := by
  cases wb <;> rfl
@[simp] theorem writeBackB_mopsEnabled (wb : Option CopyRegs) (t f z : Word) (s : State) :
    (writeBackB wb t f z s).mopsEnabled = s.mopsEnabled := by
  cases wb <;> rfl
@[simp] theorem writeBackB_performed (wb : Option CopyRegs) (t f z : Word) (s : State) :
    (writeBackB wb t f z s).performed = s.performed := by
  cases wb <;> rfl
@[simp] theorem writeBackA_draws (wb : Option CopyRegs) (v : Word) (s : State) :
    (writeBackA wb v s).draws = s.draws := by
  cases wb <;> rfl
@[simp] theorem writeBackB_draws (wb : Option CopyRegs) (t f z : Word) (s : State) :
    (writeBackB wb t f z s).draws = s.draws := by
  cases wb <;> rfl
@[simp] theorem writeBackA_drawn (wb : Option CopyRegs) (v : Word) (s : State) :
    (writeBackA wb v s).drawn = s.drawn := by
  cases wb <;> rfl
@[simp] theorem writeBackB_drawn (wb : Option CopyRegs) (t f z : Word) (s : State) :
    (writeBackB wb t f z s).drawn = s.drawn := by
  cases wb <;> rfl

/-! ### The loops -/

/-- One block less of a stage in loop A. -/
theorem magnitudeA_step {stg : Word} {b : Nat} (h : b ≤ magnitude true stg) :
    magnitude true (stg + BitVec.ofNat 64 b) = magnitude true stg - b := by
  have := (0#64 - stg).isLt
  simp only [magnitude, if_true] at h ⊢
  have e : 0#64 - (stg + BitVec.ofNat 64 b) = (0#64 - stg) - BitVec.ofNat 64 b := by
    simp [BitVec.sub_eq_add_neg, BitVec.add_comm]
  have hb : (BitVec.ofNat 64 b).toNat = b := by rw [BitVec.toNat_ofNat, Nat.mod_eq_of_lt (by omega)]
  rw [e, BitVec.toNat_sub_of_le (by rw [BitVec.le_def, hb]; exact h), hb]

/-- One block less of a stage in loop B. -/
theorem magnitudeB_step {stg : Word} {b : Nat} (h : b ≤ magnitude false stg) :
    magnitude false (stg - BitVec.ofNat 64 b) = magnitude false stg - b := by
  have := stg.isLt
  simp only [magnitude, Bool.false_eq_true, if_false] at h ⊢
  have hb : (BitVec.ofNat 64 b).toNat = b := by rw [BitVec.toNat_ofNat, Nat.mod_eq_of_lt (by omega)]
  rw [BitVec.toNat_sub_of_le (by rw [BitVec.le_def, hb]; exact h), hb]

theorem magnitude_eq_zero {optA : Bool} {stg : Word} : magnitude optA stg = 0 ↔ stg = 0#64 := by
  have hB : ∀ w : Word, w.toNat = 0 ↔ w = 0#64 := fun w =>
    ⟨fun h => BitVec.eq_of_toNat_eq (by simpa using h), fun h => by simp [h]⟩
  cases optA
  · simpa [magnitude] using hB stg
  · simp only [magnitude, if_true, hB]
    simp

/-- What loop A can do from working values `size` and `stg` on (R87, R90): it moves admissible blocks, and
either it has moved the whole stage, or the block that comes next stops it. -/
theorem copyLoopA_cases (racc wacc : AccDesc) (wb : Option CopyRegs) (to_ from_ : Word) (fuel i : Nat)
    (size stg : Word) (s : State) (hf : magnitude true stg ≤ fuel) (hwb : writeBackA wb size s = s) :
    ∃ bs, (∀ b ∈ bs, 1 ≤ b ∧ b ≤ s.cfg.blockLimit) ∧
      ((bs.sum = magnitude true stg ∧
          copyLoopA racc wacc wb to_ from_ fuel i size stg s =
            .done (writeBackA wb (size + BitVec.ofNat 64 bs.sum)
                (s.withBlocks (from_ + size) (to_ + size) bs))
              (size + BitVec.ofNat 64 bs.sum))
      ∨ ∃ n o, 1 ≤ n ∧ n ≤ s.cfg.blockLimit ∧ bs.sum + n ≤ magnitude true stg ∧
          copyLoopA racc wacc wb to_ from_ fuel i size stg s = .ended o ∧
          BlockStops (writeBackA wb (size + BitVec.ofNat 64 bs.sum) (s.withBlocks (from_ + size) (to_ + size) bs))
            (from_ + size + BitVec.ofNat 64 bs.sum) (to_ + size + BitVec.ofNat 64 bs.sum) n racc wacc o) := by
  induction fuel generalizing i size stg s with
  | zero =>
    refine ⟨[], by simp, .inl ⟨by simp; omega, ?_⟩⟩
    simp [copyLoopA, hwb]
  | succ fuel ih =>
    by_cases h0 : stg = 0#64
    · subst h0
      exact ⟨[], by simp, .inl ⟨by simp [magnitude], by simp [copyLoopA, hwb]⟩⟩
    have hm : 1 ≤ magnitude true stg := Nat.one_le_iff_ne_zero.mpr (mt magnitude_eq_zero.mp h0)
    obtain ⟨hb1, hb2, hb3⟩ := s.blockSize_admissible i hm
    generalize hb : s.blockSize i (magnitude true stg) = b at hb1 hb2 hb3
    have hstg := magnitudeA_step hb3
    obtain hmv | ⟨o, hmv, hstop⟩ := moveBlock_cases s (from_ + size) (to_ + size) b racc wacc
    · obtain ⟨bs, hbs, hcase⟩ := ih (i + 1) (size + BitVec.ofNat 64 b) (stg + BitVec.ofNat 64 b)
        (writeBackA wb (size + BitVec.ofNat 64 b) (s.withBlocks (from_ + size) (to_ + size) [b]))
        (by omega) (writeBackA_again ..)
      have hloop : copyLoopA racc wacc wb to_ from_ (fuel + 1) i size stg s =
          copyLoopA racc wacc wb to_ from_ fuel (i + 1) (size + BitVec.ofNat 64 b) (stg + BitVec.ofNat 64 b)
            (writeBackA wb (size + BitVec.ofNat 64 b) (s.withBlocks (from_ + size) (to_ + size) [b])) := by
        simp only [copyLoopA, if_neg h0, hb, hmv]
      simp only [writeBackA_withBlocks, writeBackA_again, ← BitVec.add_assoc, State.withBlocks_cons, ← hloop] at hcase
      refine ⟨b :: bs, by simpa [hb1, hb2] using hbs, ?_⟩
      rcases hcase with ⟨hsum, hdone⟩ | ⟨n, o, hn1, hn2, hsum, hend, hst⟩
      · refine .inl ⟨by simp; omega, ?_⟩
        simpa [BitVec.ofNat_add, ← BitVec.add_assoc] using hdone
      · refine .inr ⟨n, o, hn1, by simpa using hn2, by simp; omega, hend, ?_⟩
        simpa [BitVec.ofNat_add, ← BitVec.add_assoc] using hst
    · refine ⟨[], by simp, .inr ⟨b, o, hb1, hb2, by simpa using hb3, ?_, ?_⟩⟩
      · simp only [copyLoopA, if_neg h0, hb, hmv]
      · simpa [hwb] using hstop

/-- What loop B can do from working values `w` and `stg` on (R88, R90), as for loop A. -/
theorem copyLoopB_cases (racc wacc : AccDesc) (wb : Option CopyRegs) (fuel i : Nat)
    (w : Work) (stg : Word) (s : State) (hf : magnitude false stg ≤ fuel)
    (hwb : writeBackB wb w.to_ w.from_ w.size s = s) :
    ∃ bs, (∀ b ∈ bs, 1 ≤ b ∧ b ≤ s.cfg.blockLimit) ∧
      let k := BitVec.ofNat 64 bs.sum
      let t := writeBackB wb (w.to_ + k) (w.from_ + k) (w.size - k) (s.withBlocks w.from_ w.to_ bs)
      ((bs.sum = magnitude false stg ∧
          copyLoopB racc wacc wb fuel i w stg s = .done t ⟨w.to_ + k, w.from_ + k, w.size - k⟩)
      ∨ ∃ n o, 1 ≤ n ∧ n ≤ s.cfg.blockLimit ∧ bs.sum + n ≤ magnitude false stg ∧
          copyLoopB racc wacc wb fuel i w stg s = .ended o ∧
          BlockStops t (w.from_ + k) (w.to_ + k) n racc wacc o) := by
  induction fuel generalizing i w stg s with
  | zero =>
    refine ⟨[], by simp, .inl ⟨by simp; omega, ?_⟩⟩
    simp [copyLoopB, hwb]
  | succ fuel ih =>
    by_cases h0 : stg = 0#64
    · subst h0
      exact ⟨[], by simp, .inl ⟨by simp [magnitude], by simp [copyLoopB, hwb]⟩⟩
    have hm : 1 ≤ magnitude false stg := Nat.one_le_iff_ne_zero.mpr (mt magnitude_eq_zero.mp h0)
    obtain ⟨hb1, hb2, hb3⟩ := s.blockSize_admissible i hm
    generalize hb : s.blockSize i (magnitude false stg) = b at hb1 hb2 hb3
    have hstg := magnitudeB_step hb3
    obtain hmv | ⟨o, hmv, hstop⟩ := moveBlock_cases s w.from_ w.to_ b racc wacc
    · have hcons := fun bs => s.withBlocks_cons w.from_ w.to_ b bs
      generalize hv : BitVec.ofNat 64 b = v at hstg hcons
      obtain ⟨bs, hbs, hcase⟩ := ih (i + 1) ⟨w.to_ + v, w.from_ + v, w.size - v⟩ (stg - v)
        (writeBackB wb (w.to_ + v) (w.from_ + v) (w.size - v) (s.withBlocks w.from_ w.to_ [b]))
        (by omega) (writeBackB_again ..)
      have hloop : copyLoopB racc wacc wb (fuel + 1) i w stg s =
          copyLoopB racc wacc wb fuel (i + 1) ⟨w.to_ + v, w.from_ + v, w.size - v⟩ (stg - v)
            (writeBackB wb (w.to_ + v) (w.from_ + v) (w.size - v) (s.withBlocks w.from_ w.to_ [b])) := by
        simp only [copyLoopB, if_neg h0, hb, hmv, hv]
      simp only [writeBackB_withBlocks, writeBackB_again, hcons, ← hloop] at hcase
      have hsub : w.size - v - BitVec.ofNat 64 bs.sum = w.size - (v + BitVec.ofNat 64 bs.sum) := by
        exact sub_sub _ _ _
      refine ⟨b :: bs, by simpa [hb1, hb2] using hbs, ?_⟩
      rcases hcase with ⟨hsum, hdone⟩ | ⟨n, o, hn1, hn2, hsum, hend, hst⟩
      · refine .inl ⟨by simp; omega, ?_⟩
        simpa [BitVec.ofNat_add, BitVec.add_assoc, hv, hsub] using hdone
      · refine .inr ⟨n, o, hn1, by simpa using hn2, by simp; omega, hend, ?_⟩
        simpa [BitVec.ofNat_add, BitVec.add_assoc, hv, hsub] using hst
    · refine ⟨[], by simp, .inr ⟨b, o, hb1, hb2, by simpa using hb3, ?_, ?_⟩⟩
      · simp only [copyLoopB, if_neg h0, hb, hmv]
      · simpa [hwb] using hstop

/-! ### The copying part of an instruction -/

/-- The working values after `k` more bytes, in the format of the option (R87, R88). -/
def Work.advance (optA : Bool) (w : Work) (k : Word) : Work :=
  if optA then ⟨w.to_, w.from_, w.size + k⟩ else ⟨w.to_ + k, w.from_ + k, w.size - k⟩

/-- The write-back of the option's loop (R87, R88). -/
def writeBack (optA : Bool) (wb : Option CopyRegs) (w : Work) (s : State) : State :=
  if optA then writeBackA wb w.size s else writeBackB wb w.to_ w.from_ w.size s

/-- Where the next block is read (R87, R88). -/
def Work.source (optA : Bool) (w : Work) : Word := if optA then w.from_ + w.size else w.from_

/-- Where the next block is written (R87, R88). -/
def Work.dest (optA : Bool) (w : Work) : Word := if optA then w.to_ + w.size else w.to_

/-- What the copying part can do, for both options (R90): it moves admissible blocks, and either it has moved the
whole stage, or the block that comes next stops it. -/
theorem copyStage_cases (options : BitVec 4) (wb : Option CopyRegs) (optA : Bool) (w : Work) (stg : Word) (s : State)
    (hwb : writeBack optA wb w s = s) :
    ∃ bs, (∀ b ∈ bs, 1 ≤ b ∧ b ≤ s.cfg.blockLimit) ∧
      let k := BitVec.ofNat 64 bs.sum
      let t := writeBack optA wb (w.advance optA k) (s.withBlocks (w.source optA) (w.dest optA) bs)
      ((bs.sum = magnitude optA stg ∧ copyStage options wb optA w stg s = .done t (w.advance optA k))
      ∨ ∃ n o, 1 ≤ n ∧ n ≤ s.cfg.blockLimit ∧ bs.sum + n ≤ magnitude optA stg ∧
          copyStage options wb optA w stg s = .ended o ∧
          BlockStops t (w.source optA + k) (w.dest optA + k) n (s.readDesc options) (s.writeDesc options) o) := by
  cases optA with
  | true =>
    obtain ⟨bs, hbs, h⟩ := copyLoopA_cases (s.readDesc options) (s.writeDesc options) wb w.to_ w.from_
      (magnitude true stg) 0 w.size stg s (le_refl _) hwb
    refine ⟨bs, hbs, ?_⟩
    rcases h with ⟨hsum, hdone⟩ | ⟨n, o, hn1, hn2, hle, hend, hst⟩
    · exact .inl ⟨hsum, by simp [copyStage, hdone, writeBack, Work.advance, Work.source, Work.dest]⟩
    · exact .inr ⟨n, o, hn1, hn2, hle, by simp [copyStage, hend], by
        simpa [writeBack, Work.advance, Work.source, Work.dest] using hst⟩
  | false =>
    obtain ⟨bs, hbs, h⟩ := copyLoopB_cases (s.readDesc options) (s.writeDesc options) wb
      (magnitude false stg) 0 w stg s (le_refl _) hwb
    refine ⟨bs, hbs, ?_⟩
    rcases h with ⟨hsum, hdone⟩ | ⟨n, o, hn1, hn2, hle, hend, hst⟩
    · exact .inl ⟨hsum, by simpa [copyStage, writeBack, Work.advance, Work.source, Work.dest] using hdone⟩
    · exact .inr ⟨n, o, hn1, hn2, hle, by simpa [copyStage] using hend, by
        simpa [writeBack, Work.advance, Work.source, Work.dest] using hst⟩

/-- A first block that stops, stops the copying part. -/
theorem copyStage_of_blockStops {options : BitVec 4} {wb : Option CopyRegs} {optA : Bool} {w : Work} {stg : Word}
    {s : State} {o : Host.Outcome State Fault Refusal} (h1 : 1 ≤ magnitude optA stg)
    (h : moveBlock s (w.source optA) (w.dest optA) (s.blockSize 0 (magnitude optA stg)) (s.readDesc options)
      (s.writeDesc options) = .ended o) : copyStage options wb optA w stg s = .ended o := by
  have h0 : stg ≠ 0#64 := fun e => by
    have := (magnitude_eq_zero (optA := optA)).mpr e
    omega
  obtain ⟨f, hf⟩ : ∃ f, magnitude optA stg = f + 1 := ⟨magnitude optA stg - 1, by omega⟩
  cases optA <;> rw [hf] at h <;>
    simp_all [copyStage, copyLoopA, copyLoopB, Work.source, Work.dest]

/-! ### What moving blocks does to memory -/

theorem moveBlocks_wf {m : Memory} (src dst : Word) (bs : List Nat) (h : m.wf = true) :
    (moveBlocks m src dst bs).wf = true := by
  induction bs generalizing m src dst with
  | nil => exact h
  | cons b bs ih => exact ih _ _ (Memory.wf_writeBlock _ _ h)

/-- A byte outside the destination reads as before. -/
theorem moveBlocks_outside {m : Memory} {src dst : Word} {bs : List Nat} {a : Nat}
    (h : ∀ i, i < bs.sum → a ≠ byteAddr dst i) : (moveBlocks m src dst bs).read a = m.read a := by
  induction bs generalizing m src dst with
  | nil => rfl
  | cons b bs ih =>
    simp only [List.sum_cons] at h
    rw [moveBlocks, ih, Memory.read_writeBlock_outside]
    · intro i hi
      exact h i (by simp at hi; omega)
    · intro i hi
      rw [byteAddr_add]
      exact h (b + i) (by omega)

/-- Where the source is not overwritten before it is read, the destination ends with the bytes the source began
with (R56 (a)). -/
theorem moveBlocks_forward {m : Memory} {src dst : Word} {bs : List Nat} (hf : copiesForward src dst bs.sum)
    {i : Nat} (hi : i < bs.sum) :
    (moveBlocks m src dst bs).read (byteAddr dst i) = m.read (byteAddr src i) := by
  induction bs generalizing m src dst i with
  | nil => simp at hi
  | cons b bs ih =>
    obtain ⟨hs, hd, ho⟩ := hf
    simp only [List.sum_cons] at hs hd ho hi
    have eA : ∀ (a : Word) (j : Nat), a.toNat + j < 2 ^ 64 → byteAddr a j = a.toNat + j := fun a j hj => by
      rw [byteAddr_toNat, Nat.mod_eq_of_lt hj]
    have e2 : ∀ (a : Word) (j : Nat), a.toNat + (b + j) < 2 ^ 64 →
        byteAddr (a + BitVec.ofNat 64 b) j = a.toNat + (b + j) := fun a j hj => by
      rw [byteAddr_add, eA a _ hj]
    rw [moveBlocks]
    by_cases hib : i < b
    · rw [moveBlocks_outside]
      · rw [Memory.read_writeBlock_inside (by simp; omega) (by simpa using hib), Memory.getElem_readBlock]
      · intro j hj
        rw [e2 dst j (by omega), eA dst i (by omega)]
        omega
    · obtain ⟨j, rfl⟩ : ∃ j, i = b + j := ⟨i - b, by omega⟩
      by_cases hbs : bs.sum = 0
      · omega
      have tA : ∀ a : Word, a.toNat + (b + bs.sum) ≤ 2 ^ 64 → (a + BitVec.ofNat 64 b).toNat = a.toNat + b :=
        fun a ha => by simpa using e2 a 0 (by omega)
      rw [← byteAddr_add, ih ⟨by rw [tA src hs]; omega, by rw [tA dst hd]; omega, by rw [tA src hs, tA dst hd]; omega⟩
        (by omega), Memory.read_writeBlock_outside]
      · rw [byteAddr_add]
      · intro l hl
        simp only [Memory.length_readBlock] at hl
        rw [e2 src j (by omega), eA dst l (by omega)]
        omega

/-! ### The Operations -/

/-- What CPYFP can do after the checks (R84, R90): it moves admissible blocks, and either it has moved all it chose
to and completes, or the block that comes next stops it with no register and no flag written. -/
theorem prologue_cases (options : BitVec 4) (r : CopyRegs) (s : State) :
    ∃ bs, (∀ b ∈ bs, 1 ≤ b ∧ b ≤ s.cfg.blockLimit) ∧
      let k := BitVec.ofNat 64 bs.sum
      let t := s.withBlocks (s.readX r.s) (s.readX r.d) bs
      let w := (prologueWork s.now.optionA (s.readX r.d) (s.readX r.s) (s.readX r.n)).advance s.now.optionA k
      ((bs.sum = prologueBytes s r ∧ prologue options r s =
          .next ((((((t.writeX r.n w.size).writeX r.d w.to_).writeX r.s w.from_)).setFlags
            (Flags.ofOption s.now.optionA)).complete))
      ∨ ∃ n o, 1 ≤ n ∧ n ≤ s.cfg.blockLimit ∧ bs.sum + n ≤ prologueBytes s r ∧ prologue options r s = o ∧
          BlockStops t (s.readX r.s + k) (s.readX r.d + k) n (s.readDesc options) (s.writeDesc options) o) := by
  have hsrc : ∀ o a b c, (prologueWork o a b c).source o = b := fun o a b c => by
    cases o <;> simp [prologueWork, Work.source]
  have hdst : ∀ o a b c, (prologueWork o a b c).dest o = a := fun o a b c => by
    cases o <;> simp [prologueWork, Work.dest]
  obtain ⟨bs, hbs, h⟩ := copyStage_cases options none s.now.optionA
    (prologueWork s.now.optionA (s.readX r.d) (s.readX r.s) (s.readX r.n))
    (preSize s.now.preSize (prologueWork s.now.optionA (s.readX r.d) (s.readX r.s) (s.readX r.n)).size) s
    (by simp [writeBack, writeBackA, writeBackB])
  refine ⟨bs, hbs, ?_⟩
  rcases h with ⟨hsum, hdone⟩ | ⟨n, o, hn1, hn2, hle, hend, hst⟩
  · refine .inl ⟨hsum, ?_⟩
    simp only [prologue, hdone]
    simp [writeBack, writeBackA, writeBackB, hsrc, hdst]
  · refine .inr ⟨n, o, hn1, hn2, hle, by simp only [prologue, hend], ?_⟩
    simpa [writeBack, writeBackA, writeBackB, hsrc, hdst] using hst

/-- What the copying part of CPYFM and CPYFE can do (R85, R86, R90): as for CPYFP, with the registers written back
after every block. -/
theorem copyAndComplete_cases (options : BitVec 4) (r : CopyRegs) (stg : Word) (s : State) :
    ∃ bs, (∀ b ∈ bs, 1 ≤ b ∧ b ≤ s.cfg.blockLimit) ∧
      ((bs.sum = magnitude s.now.optionA stg ∧
          copyAndComplete options r stg s = .next (afterBlocks s r bs).complete)
      ∨ ∃ n o, 1 ≤ n ∧ n ≤ s.cfg.blockLimit ∧ bs.sum + n ≤ magnitude s.now.optionA stg ∧
          copyAndComplete options r stg s = o ∧
          BlockStops (afterBlocks s r bs) (nextSource s r + BitVec.ofNat 64 bs.sum)
            (nextDest s r + BitVec.ofNat 64 bs.sum) n (s.readDesc options) (s.writeDesc options) o) := by
  obtain ⟨bs, hbs, h⟩ := copyStage_cases options (some r) s.now.optionA ⟨s.readX r.d, s.readX r.s, s.readX r.n⟩ stg s
    (by simp [writeBack, writeBackA, writeBackB])
  have hafter : writeBack s.now.optionA (some r)
      (Work.advance s.now.optionA ⟨s.readX r.d, s.readX r.s, s.readX r.n⟩ (BitVec.ofNat 64 bs.sum))
      (s.withBlocks (nextSource s r) (nextDest s r) bs) = afterBlocks s r bs := by
    cases ho : s.now.optionA <;> simp [afterBlocks, writeBack, writeBackA, writeBackB, Work.advance, ho]
  have hsrc : Work.source s.now.optionA ⟨s.readX r.d, s.readX r.s, s.readX r.n⟩ = nextSource s r := rfl
  have hdst : Work.dest s.now.optionA ⟨s.readX r.d, s.readX r.s, s.readX r.n⟩ = nextDest s r := rfl
  simp only [hsrc, hdst, hafter] at h
  refine ⟨bs, hbs, ?_⟩
  rcases h with ⟨hsum, hdone⟩ | ⟨n, o, hn1, hn2, hle, hend, hst⟩
  · exact .inl ⟨hsum, by simp only [copyAndComplete, hdone]⟩
  · exact .inr ⟨n, o, hn1, hn2, hle, by simp only [copyAndComplete, hend], hst⟩

/-- Where a copy can be made, no block stops it: `bs` are the blocks before, `n` is the size of the next, and `t`
is the state reached, with whatever registers. -/
theorem not_blockStops_of_canCopy {s t : State} {options : BitVec 4} {src dst : Word} {bs : List Nat} {total n : Nat}
    {o : Host.Outcome State Fault Refusal} (hc : s.canCopy options src dst total)
    (hbs : ∀ b ∈ bs, 1 ≤ b ∧ b ≤ s.cfg.blockLimit) (hn : 1 ≤ n) (hl : n ≤ s.cfg.blockLimit) (hk : bs.sum + n ≤ total)
    (hp : t.platform = s.platform) (ht : t.text = s.text) (hm : t.mem = (s.withBlocks src dst bs).mem)
    (hd : t.performed = (s.withBlocks src dst bs).performed) :
    ¬ BlockStops t (src + BitVec.ofNat 64 bs.sum) (dst + BitVec.ofNat 64 bs.sum) n (s.readDesc options)
      (s.writeDesc options) o := by
  obtain ⟨hrw, htx⟩ := hc
  obtain ⟨hr, hw⟩ := hrw bs n ⟨hbs, rfl⟩ hn hl hk
  rw [← State.memFault_congr (s := s.withBlocks src dst bs) (t := t) hp hm hd] at hr
  rw [← State.memFault_congr (s := (s.withBlocks src dst bs).access) (t := t.access) hp hm (by simp [hd])] at hw
  rintro (⟨f, hf, -⟩ | ⟨-, f, hf, -⟩ | ⟨-, -, hx, -⟩)
  · rw [hr] at hf; cases hf
  · rw [hw] at hf; cases hf
  · have : t.text.meets (dst + BitVec.ofNat 64 bs.sum) n = false :=
      Memory.meets_eq_false.mpr (fun i hi => by rw [byteAddr_add, ht]; exact htx (bs.sum + i) (by omega))
    rw [this] at hx; cases hx

/-- A block whose destination meets the text lies in a destination that is not clear of it. -/
theorem not_clearOfText_of_meets {s : State} {dst : Word} {k n total : Nat} (hk : k + n ≤ total)
    (h : s.text.meets (dst + BitVec.ofNat 64 k) n = true) : ¬ s.clearOfText dst total := fun hc => by
  have : s.text.meets (dst + BitVec.ofNat 64 k) n = false :=
    Memory.meets_eq_false.mpr (fun i hi => by rw [byteAddr_add]; exact hc (k + i) (by omega))
  rw [this] at h; cases h

/-- How a stopped block ends: the refusal of its destination, or a recorded MemoryFault. -/
theorem BlockStops.outcome {t : State} {src dst : Word} {n : Nat} {racc wacc : AccDesc}
    {o : Host.Outcome State Fault Refusal} (h : BlockStops t src dst n racc wacc o) :
    (o = .refused .destinationInProgramText ∧ t.text.meets dst n = true)
    ∨ ∃ u, o = .next u ∧ BlockFaults t u src dst n racc wacc := by
  rcases h with ⟨f, hf, rfl⟩ | ⟨hr, f, hf, rfl⟩ | ⟨-, -, hm, rfl⟩
  · exact .inr ⟨_, rfl, .inl ⟨f, hf, rfl⟩⟩
  · exact .inr ⟨_, rfl, .inr ⟨hr, f, hf, rfl⟩⟩
  · exact .inl ⟨rfl, hm⟩

end Sys2Proof.Machine
end

