-- ==== Sys2Proof/Laws/Exec.lean ====
section
/-! SUPPORT. What an instruction can do, said once: every end of it. -/

namespace Sys2Proof.Machine

/-! ### Fields of the state after some blocks of CPYFM or CPYFE -/

section AfterBlocks

variable (s : State) (r : CopyRegs) (bs : List Nat)

@[simp] theorem afterBlocks_flags : (afterBlocks s r bs).flags = s.flags := by unfold afterBlocks; split <;> rfl
@[simp] theorem afterBlocks_el : (afterBlocks s r bs).el = s.el := by unfold afterBlocks; split <;> rfl
@[simp] theorem afterBlocks_uao : (afterBlocks s r bs).uao = s.uao := by unfold afterBlocks; split <;> rfl
@[simp] theorem afterBlocks_hcr : (afterBlocks s r bs).hcr = s.hcr := by unfold afterBlocks; split <;> rfl
@[simp] theorem afterBlocks_pc : (afterBlocks s r bs).pc = s.pc := by unfold afterBlocks; split <;> rfl
@[simp] theorem afterBlocks_text : (afterBlocks s r bs).text = s.text := by unfold afterBlocks; split <;> rfl
@[simp] theorem afterBlocks_fault : (afterBlocks s r bs).fault = s.fault := by unfold afterBlocks; split <;> rfl
@[simp] theorem afterBlocks_cfg : (afterBlocks s r bs).cfg = s.cfg := by unfold afterBlocks; split <;> rfl
@[simp] theorem afterBlocks_platform : (afterBlocks s r bs).platform = s.platform := by
  unfold afterBlocks; split <;> rfl
@[simp] theorem afterBlocks_mopsEnabled : (afterBlocks s r bs).mopsEnabled = s.mopsEnabled := by
  unfold afterBlocks; split <;> rfl
@[simp] theorem afterBlocks_performed : (afterBlocks s r bs).performed = s.performed + 2 * bs.length := by
  unfold afterBlocks; split <;> rfl
@[simp] theorem afterBlocks_draws : (afterBlocks s r bs).draws = s.draws := by unfold afterBlocks; split <;> rfl
@[simp] theorem afterBlocks_drawn : (afterBlocks s r bs).drawn = s.drawn := by unfold afterBlocks; split <;> rfl
@[simp] theorem afterBlocks_mem :
    (afterBlocks s r bs).mem = moveBlocks s.mem (nextSource s r) (nextDest s r) bs := by
  unfold afterBlocks; split <;> rfl

@[simp] theorem afterBlocks_nil : afterBlocks s r [] = s := by
  unfold afterBlocks; split <;> simp

/-- A register that the option's write-back does not name. -/
theorem afterBlocks_readX {j : RegNum} (h1 : j ≠ r.n) (h2 : s.now.optionA = true ∨ (j ≠ r.d ∧ j ≠ r.s)) :
    (afterBlocks s r bs).readX j = s.readX j := by
  unfold afterBlocks
  rcases h2 with h2 | ⟨h2, h3⟩
  · simp [h2, State.readX_writeX, h1]
  · split <;> simp [State.readX_writeX, h1, h2, h3]

end AfterBlocks

/-! ### The post size -/

/-- The size choice of CPYFM and CPYFE that is used is admissible (R89 (Q)). -/
theorem postSize_admissible (optA : Bool) (raw size : Word) :
    postAdmissible optA size (postSize optA raw size) = true := by
  unfold postSize
  split
  · assumption
  · cases optA <;> simp [postAdmissible]

theorem Word.toInt_cases (w : Word) : w.toInt = if w.toNat < 2 ^ 63 then (w.toNat : Int) else w.toNat - 2 ^ 64 := by
  rw [BitVec.toInt_eq_toNat_cond]
  split <;> split <;> omega

/-- What is left to the epilogue is part of what remains, and the stage of CPYFM is the difference (R85). -/
theorem leftForEpilogue_le {s : State} {r : CopyRegs} (hs : s.now.optionA = true → (s.readX r.n).toInt ≤ 0) :
    leftForEpilogue s r ≤ remaining s r ∧
      magnitude s.now.optionA (s.readX r.n - s.post r) = remaining s r - leftForEpilogue s r := by
  have h := postSize_admissible s.now.optionA s.now.postSize (s.readX r.n)
  simp only [leftForEpilogue, remaining, State.post]
  generalize postSize s.now.optionA s.now.postSize (s.readX r.n) = post at h ⊢
  generalize s.readX r.n = size at h hs ⊢
  have h1 := size.isLt
  have h2 := post.isLt
  cases ho : s.now.optionA with
  | false =>
    simp only [ho, postAdmissible, Bool.and_eq_true, Bool.false_eq_true, if_false, decide_eq_true_eq] at h
    simp only [magnitude, Bool.false_eq_true, if_false]
    exact ⟨h.2, BitVec.toNat_sub_of_le h.2⟩
  | true =>
    have hs := hs ho
    simp only [ho, postAdmissible, Bool.and_eq_true, if_true, if_pos hs, decide_eq_true_eq] at h
    have h := h.2
    simp only [magnitude, if_true]
    simp only [Word.toInt_cases] at h hs
    simp only [BitVec.toNat_sub]
    simp
    split_ifs at * <;> omega

theorem illformed_eq_false {optA drawn : Bool} {size : Word} :
    illformed optA drawn size = false ↔ drawn = false ∧ (optA = true → size.toInt ≤ 0) := by
  simp [illformed]

/-! ### Fields of the state before a block stops an instruction -/

section DuringStage

variable (i : Instr) (s : State) (r : CopyRegs) (bs : List Nat)

@[simp] theorem duringStage_flags : (duringStage i s r bs).flags = s.flags := by
  cases i <;> simp [duringStage]
@[simp] theorem duringStage_pc : (duringStage i s r bs).pc = s.pc := by
  cases i <;> simp [duringStage]
@[simp] theorem duringStage_draws : (duringStage i s r bs).draws = s.draws := by
  cases i <;> simp [duringStage]
@[simp] theorem duringStage_drawn : (duringStage i s r bs).drawn = s.drawn := by
  cases i <;> simp [duringStage]
@[simp] theorem duringStage_el : (duringStage i s r bs).el = s.el := by
  cases i <;> simp [duringStage]
@[simp] theorem duringStage_uao : (duringStage i s r bs).uao = s.uao := by
  cases i <;> simp [duringStage]
@[simp] theorem duringStage_hcr : (duringStage i s r bs).hcr = s.hcr := by
  cases i <;> simp [duringStage]
@[simp] theorem duringStage_text : (duringStage i s r bs).text = s.text := by
  cases i <;> simp [duringStage]
@[simp] theorem duringStage_fault : (duringStage i s r bs).fault = s.fault := by
  cases i <;> simp [duringStage]
@[simp] theorem duringStage_cfg : (duringStage i s r bs).cfg = s.cfg := by
  cases i <;> simp [duringStage]
@[simp] theorem duringStage_mopsEnabled : (duringStage i s r bs).mopsEnabled = s.mopsEnabled := by
  cases i <;> simp [duringStage]
@[simp] theorem duringStage_platform : (duringStage i s r bs).platform = s.platform := by
  cases i <;> simp [duringStage]
@[simp] theorem duringStage_mem :
    (duringStage i s r bs).mem = moveBlocks s.mem (stageSource i s r) (stageDest i s r) bs := by
  cases i <;> simp [duringStage, stageSource, stageDest]
@[simp] theorem duringStage_performed : (duringStage i s r bs).performed = s.performed + 2 * bs.length := by
  cases i <;> simp [duringStage]
@[simp] theorem duringStage_nil : duringStage i s r [] = s := by
  cases i <;> simp [duringStage]

end DuringStage

/-! ### Every end of an instruction -/

/-- The state in which an instruction completes after the blocks `bs` (R84, R85, R86). -/
def stageDone (i : Instr) (s : State) (r : CopyRegs) (bs : List Nat) : State :=
  match i with
  | .cpyfp _ _ _ _ _ =>
    let w := (prologueWork s.now.optionA (s.readX r.d) (s.readX r.s) (s.readX r.n)).advance s.now.optionA
      (BitVec.ofNat 64 bs.sum)
    (((((s.withBlocks (s.readX r.s) (s.readX r.d) bs).writeX r.n w.size).writeX r.d w.to_).writeX r.s
      w.from_).setFlags (Flags.ofOption s.now.optionA)).complete
  | .cpyfm _ _ _ _ _ => (afterBlocks s r bs).complete
  | .cpyfe _ _ _ _ _ => (afterBlocks s r bs).complete

section StageDone

variable (i : Instr) (s : State) (r : CopyRegs) (bs : List Nat)

@[simp] theorem stageDone_el : (stageDone i s r bs).el = s.el := by
  cases i <;> simp [stageDone]
@[simp] theorem stageDone_uao : (stageDone i s r bs).uao = s.uao := by
  cases i <;> simp [stageDone]
@[simp] theorem stageDone_hcr : (stageDone i s r bs).hcr = s.hcr := by
  cases i <;> simp [stageDone]
@[simp] theorem stageDone_text : (stageDone i s r bs).text = s.text := by
  cases i <;> simp [stageDone]
@[simp] theorem stageDone_fault : (stageDone i s r bs).fault = s.fault := by
  cases i <;> simp [stageDone]
@[simp] theorem stageDone_cfg : (stageDone i s r bs).cfg = s.cfg := by
  cases i <;> simp [stageDone]
@[simp] theorem stageDone_mopsEnabled : (stageDone i s r bs).mopsEnabled = s.mopsEnabled := by
  cases i <;> simp [stageDone]
@[simp] theorem stageDone_platform : (stageDone i s r bs).platform = s.platform := by
  cases i <;> simp [stageDone]
@[simp] theorem stageDone_pc : (stageDone i s r bs).pc = s.pc + 4#64 := by
  cases i <;> simp [stageDone]
@[simp] theorem stageDone_mem :
    (stageDone i s r bs).mem = moveBlocks s.mem (stageSource i s r) (stageDest i s r) bs := by
  cases i <;> simp [stageDone, stageSource, stageDest]

end StageDone

/-- The ends of a stage of copying: all its blocks are moved, or the block that comes next stops it (R87, R88,
R90). -/
def StageEnds (i : Instr) (s : State) (r : CopyRegs) (o : Host.Outcome State Fault Refusal) : Prop :=
  ∃ bs, (∀ b ∈ bs, 1 ≤ b ∧ b ≤ s.cfg.blockLimit) ∧
    ((bs.sum = stageBytes i s r ∧ o = .next (stageDone i s r bs))
    ∨ ∃ n, 1 ≤ n ∧ n ≤ s.cfg.blockLimit ∧ bs.sum + n ≤ stageBytes i s r ∧
        BlockStops (duringStage i s r bs) (stageSource i s r + BitVec.ofNat 64 bs.sum)
          (stageDest i s r + BitVec.ofNat 64 bs.sum) n (s.readDesc (optionsOf i)) (s.writeDesc (optionsOf i)) o)

/-- The MemCopyMismatch of CPYFM or CPYFE, and the test that raises it (R132). -/
def Mismatches (i : Instr) (s : State) (r : CopyRegs) (o : Host.Outcome State Fault Refusal) : Prop :=
  match i with
  | .cpyfp _ _ _ _ _ => False
  | .cpyfm _ op2 _ _ _ => ∃ w, o = raiseMismatch op2 r w false s ∧
      (if w then optionMismatch r s = true else optionMismatch r s = false ∧ mainRejects s r)
  | .cpyfe _ op2 _ _ _ => ∃ w, o = raiseMismatch op2 r w true s ∧
      (if w then optionMismatch r s = true else optionMismatch r s = false ∧ epilogueRejects s r)

/-- The ends of an Operation (R84, R85, R86, R97). -/
def OperationEnds (i : Instr) (s : State) (r : CopyRegs) (o : Host.Outcome State Fault Refusal) : Prop :=
  Mismatches i s r o ∨ (testsPass i s r ∧ StageEnds i s r o)

theorem prologue_ends (sz : BitVec 2) (op2 : BitVec 4) (rs rn rd : BitVec 5) (r : CopyRegs) (s : State) :
    OperationEnds (.cpyfp sz op2 rs rn rd) s r (prologue op2 r s) := by
  obtain ⟨bs, hbs, h⟩ := prologue_cases op2 r s
  refine .inr ⟨trivial, bs, hbs, ?_⟩
  rcases h with ⟨hsum, hdone⟩ | ⟨n, o, hn1, hn2, hle, hend, hst⟩
  · exact .inl ⟨hsum, hdone⟩
  · exact .inr ⟨n, hn1, hn2, hle, by rw [hend]; exact hst⟩

theorem mainStage_ends (sz : BitVec 2) (op2 : BitVec 4) (rs rn rd : BitVec 5) (r : CopyRegs) (s : State) :
    OperationEnds (.cpyfm sz op2 rs rn rd) s r (mainStage op2 r s) := by
  unfold mainStage
  split
  · rename_i hm; exact .inl ⟨true, rfl, by simpa using hm⟩
  · rename_i hm
    have hm : optionMismatch r s = false := by simpa using hm
    split
    · rename_i hi; exact .inl ⟨false, rfl, by simpa [mainRejects] using ⟨hm, hi⟩⟩
    · rename_i hi
      have hmag := (leftForEpilogue_le (illformed_eq_false.mp (by simpa using hi)).2).2
      obtain ⟨bs, hbs, h⟩ := copyAndComplete_cases op2 r (s.readX r.n - s.post r) s
      rw [hmag] at h
      refine .inr ⟨⟨hm, hi⟩, bs, hbs, ?_⟩
      rcases h with ⟨hsum, hdone⟩ | ⟨n, o, hn1, hn2, hle, hend, hst⟩
      · exact .inl ⟨hsum, hdone⟩
      · exact .inr ⟨n, hn1, hn2, hle, by rw [hend]; exact hst⟩

theorem epilogue_ends (sz : BitVec 2) (op2 : BitVec 4) (rs rn rd : BitVec 5) (r : CopyRegs) (s : State) :
    OperationEnds (.cpyfe sz op2 rs rn rd) s r (epilogue op2 r s) := by
  unfold epilogue
  split
  · rename_i hm; exact .inl ⟨true, rfl, by simpa using hm⟩
  · rename_i hm
    have hm : optionMismatch r s = false := by simpa using hm
    split
    · rename_i hi; exact .inl ⟨false, rfl, by simpa [epilogueRejects] using ⟨hm, hi⟩⟩
    · rename_i hi
      have hp : s.readX r.n = s.post r := by
        simp only [not_or, not_not] at hi; exact hi.1
      obtain ⟨bs, hbs, h⟩ := copyAndComplete_cases op2 r (s.post r) s
      rw [← hp] at h ⊢
      refine .inr ⟨⟨hm, hi⟩, bs, hbs, ?_⟩
      rcases h with ⟨hsum, hdone⟩ | ⟨n, o, hn1, hn2, hle, hend, hst⟩
      · exact .inl ⟨hsum, hdone⟩
      · exact .inr ⟨n, hn1, hn2, hle, by rw [hend]; exact hst⟩

/-- Every end of an instruction: the checks of R70 end it, or its Operation runs. -/
theorem exec_cases (i : Instr) (s : State) :
    (∃ c, checksOf i s = .undef c ∧ exec i s = .next (s.raise (.undefined c)))
    ∨ (checksOf i s = .nop ∧ exec i s = .next s.complete)
    ∨ ∃ r, checksOf i s = .run r ∧ OperationEnds i s r (exec i s) := by
  cases i <;> rename_i sz op2 rs rn rd <;>
    simp only [exec, execCpyfp, execCpyfm, execCpyfe, checksOf, afterChecks] <;>
    cases hc : checks s sz rs rn rd <;> simp [prologue_ends, mainStage_ends, epilogue_ends]

end Sys2Proof.Machine
end

