-- ==== Sys2Proof/Laws/PerInstr.lean ====
section
/-! SUPPORT. Statements made for each instruction: its word lies in its row of the opcode table. -/

namespace Sys2Proof.Laws.TableRow

/-- The word of a well-formed instruction has its row's match under the table's mask (R63). -/
def Statement (i : Instr) : Prop := i.wf = true → encodeWord i &&& rowMask = i.rowMatch

theorem cpyfp (sz : BitVec 2) (op2 : BitVec 4) (rs rn rd : BitVec 5) : Statement (.cpyfp sz op2 rs rn rd) := by
  intro h
  obtain rfl : op2 = 0#4 := by simpa [Instr.wf] using h
  simp only [encodeWord, packWord_masked]
  rfl

theorem cpyfm (sz : BitVec 2) (op2 : BitVec 4) (rs rn rd : BitVec 5) : Statement (.cpyfm sz op2 rs rn rd) := by
  intro h
  obtain rfl : op2 = 0#4 := by simpa [Instr.wf] using h
  simp only [encodeWord, packWord_masked]
  rfl

theorem cpyfe (sz : BitVec 2) (op2 : BitVec 4) (rs rn rd : BitVec 5) : Statement (.cpyfe sz op2 rs rn rd) := by
  intro h
  obtain rfl : op2 = 0#4 := by simpa [Instr.wf] using h
  simp only [encodeWord, packWord_masked]
  rfl

end Sys2Proof.Laws.TableRow
end

