-- ==== Sys2Proof/Tests/Slice0.lean ====
section
/-! SUPPORT. The model's own tests, with the expected values of spec/95_test_vectors.md, and a witness for the
hypotheses of every statement of Sys2Proof/Certificates/Slice0/Obligations.lean. -/

namespace Sys2Proof.Tests

open Sys2Proof Sys2Proof.Machine

/-! ### Well-formedness: an ill-formed term is refused -/

theorem test_wf_cpyfp : (Instr.cpyfp 0#2 0#4 1#5 2#5 0#5).wf = true ∧ (Instr.cpyfp 0#2 4#4 1#5 2#5 0#5).wf = false := by
  decide
theorem test_wf_cpyfm : (Instr.cpyfm 3#2 0#4 1#5 2#5 0#5).wf = true ∧ (Instr.cpyfm 0#2 1#4 1#5 2#5 0#5).wf = false := by
  decide
theorem test_wf_cpyfe : (Instr.cpyfe 0#2 0#4 31#5 2#5 0#5).wf = true ∧ (Instr.cpyfe 0#2 8#4 1#5 2#5 0#5).wf = false := by
  decide

/-! ### Decoding -/

/-- V1, bit by bit: sz 00, 011001, op1 00, 0, Rs 00001, op2 0000, 01, Rn 00010, Rd 00000. -/
theorem test_decode_cpyfp : decodeWord 0b00011001000000010000010001000000#32 = .ok (.cpyfp 0#2 0#4 1#5 2#5 0#5) := by
  decide
/-- V2: op1 01. -/
theorem test_decode_cpyfm : decodeWord 0b00011001010000010000010001000000#32 = .ok (.cpyfm 0#2 0#4 1#5 2#5 0#5) := by
  decide
/-- V3: op1 10. -/
theorem test_decode_cpyfe : decodeWord 0b00011001100000010000010001000000#32 = .ok (.cpyfe 0#2 0#4 1#5 2#5 0#5) := by
  decide
/-- V1 to V3: the bytes in memory order. -/
theorem test_decode_bytes :
    decode [0x40#8, 0x04#8, 0x01#8, 0x19#8] = .ok (.cpyfp 0#2 0#4 1#5 2#5 0#5, []) ∧
    decode [0x40#8, 0x04#8, 0x41#8, 0x19#8] = .ok (.cpyfm 0#2 0#4 1#5 2#5 0#5, []) ∧
    decode [0x40#8, 0x04#8, 0x81#8, 0x19#8] = .ok (.cpyfe 0#2 0#4 1#5 2#5 0#5, []) := by decide
/-- V4. -/
theorem test_decode_registers :
    decodeWord 0x190404A3#32 = .ok (.cpyfp 0#2 0#4 4#5 5#5 3#5) ∧
    decodeWord 0x195D079E#32 = .ok (.cpyfm 0#2 0#4 29#5 28#5 30#5) ∧
    decodeWord 0x199405EA#32 = .ok (.cpyfe 0#2 0#4 20#5 15#5 10#5) := by decide
/-- V4, encoded. -/
theorem test_encode_registers :
    encodeWord (.cpyfm 0#2 0#4 4#5 5#5 3#5) = 0x194404A3#32 ∧
    encodeWord (.cpyfe 0#2 0#4 29#5 28#5 30#5) = 0x199D079E#32 ∧
    encodeWord (.cpyfp 0#2 0#4 20#5 15#5 10#5) = 0x191405EA#32 := by decide
/-- V5: a word with sz other than 00 still matches its row. -/
theorem test_decode_sz :
    decodeWord 0x59010440#32 = .ok (.cpyfp 1#2 0#4 1#5 2#5 0#5) ∧
    decodeWord 0x99010440#32 = .ok (.cpyfp 2#2 0#4 1#5 2#5 0#5) ∧
    decodeWord 0xD9010440#32 = .ok (.cpyfp 3#2 0#4 1#5 2#5 0#5) := by decide
/-- V5: words of no row. -/
theorem test_decode_refused :
    decodeWord 0x19C10440#32 = .error .seeMemoryCopyAndMemorySet ∧
    decodeWord 0x19014440#32 = .error .optionsNotInSource ∧
    decodeWord 0x39010440#32 = .error .notInTable ∧ decodeWord 0x1A010440#32 = .error .notInTable ∧
    decodeWord 0x19010040#32 = .error .notInTable ∧ decodeWord 0x19210440#32 = .error .notInTable ∧
    decode [0x40#8, 0x04#8, 0x01#8] = .error .tooShort := by decide
/-- The table's numbering of V2's word. -/
theorem test_decodeTableWord : decodeTableWord 32 0x19410440 = some (.cpyfm 0#2 0#4 1#5 2#5 0#5) := by decide

/-! ### Small states -/

/-- The registers of every vector: d = 0, s = 1, n = 2. -/
def regs : CopyRegs := ⟨0, 1, 2⟩

/-- Bytes A0, A1, ... at 0x1000 to 0x1013 and, of these, the first `k` at 0x2000 on (V11). -/
def bytes (k : Nat) : Memory :=
  (List.range 20).map (fun i => (0x1000 + i, BitVec.ofNat 8 (0xA0 + i))) ++
    (List.range k).map (fun i => (0x2000 + i, BitVec.ofNat 8 (0xA0 + i)))

/-- The reference draws of D27 with the option, the size choices and the blocks of a vector. -/
def draw (optA : Bool) (pre post : Word) (blocks : List Nat) : Draws :=
  { Draws.atReset with optionA := optA, preSize := pre, postSize := post, blocks := blocks }

/-- A state with X0, X1, X2, the flags, memory and draws of a vector. -/
def start (x0 x1 x2 : Word) (nzcv : BitVec 4) (m : Memory) (ds : List Draws) : State :=
  { (((State.reset.writeX 0 x0).writeX 1 x1).writeX 2 x2) with flags := Flags.ofNzcv nzcv, mem := m, draws := ds }

/-- V11, option A. -/
def v11A : State := start 0x2000#64 0x1000#64 20#64 0b1111#4 (bytes 0) [draw true (-4#64) 0#64 [4]]
/-- V11, option B. -/
def v11B : State := start 0x2000#64 0x1000#64 20#64 0b1111#4 (bytes 0) [draw false 4#64 0#64 [4]]
/-- V15, option A. -/
def v15A : State := start 0x2014#64 0x1014#64 (-16#64) 0b0000#4 (bytes 4) [draw true 0#64 (-3#64) [8, 5]]
/-- V15, option B. -/
def v15B : State := start 0x2004#64 0x1004#64 16#64 0b0010#4 (bytes 4) [draw false 0#64 3#64 [8, 5]]
/-- V21, option A. -/
def v21A : State := start 0x2014#64 0x1014#64 (-3#64) 0b0000#4 (bytes 17) [draw true 0#64 (-3#64) [3]]
/-- V21, option B (its flags 0110). -/
def v21B : State := start 0x2011#64 0x1011#64 3#64 0b0110#4 (bytes 17) [draw false 0#64 3#64 [2, 1]]

def cpyfp : Instr := .cpyfp 0#2 0#4 1#5 2#5 0#5
def cpyfm : Instr := .cpyfm 0#2 0#4 1#5 2#5 0#5
def cpyfe : Instr := .cpyfe 0#2 0#4 1#5 2#5 0#5

/-- What a test looks at. -/
structure Seen where
  x0 : Word
  x1 : Word
  x2 : Word
  nzcv : BitVec 4
  fault : Option Fault
  advance : Word
  byte : Byte
deriving DecidableEq, Repr

/-- The next state, with the byte at `a`. -/
def seen (i : Instr) (s : State) (a : Word) : Option Seen :=
  match exec i s with
  | .next t => some ⟨t.readX 0, t.readX 1, t.readX 2, t.flags.nzcv, t.fault, t.pc - s.pc, t.byte a⟩
  | _ => none

/-! ### One step of each instruction -/

theorem test_cpyfp_basic :
    seen cpyfp v11A 0x2003#64 = some ⟨0x2014#64, 0x1014#64, 0xFFFFFFFFFFFFFFF0#64, 0b0000#4, none, 4#64, 0xA3#8⟩ ∧
    seen cpyfp v11B 0x2004#64 = some ⟨0x2004#64, 0x1004#64, 0x10#64, 0b0010#4, none, 4#64, 0x00#8⟩ := by decide +kernel

/-- V13: the destination wraps past 2^64; V24 row 1: the read of the second block faults. -/
theorem test_cpyfp_wrap_and_fault :
    seen cpyfp (start 0xFFFFFFFFFFFFFFFE#64 0x1000#64 4#64 0b1111#4 (bytes 0) [draw false 4#64 0#64 [4]]) 1#64
      = some ⟨2#64, 0x1004#64, 0#64, 0b0010#4, none, 4#64, 0xA3#8⟩ ∧
    seen cpyfp { start 0x2000#64 0x1000#64 20#64 0b1111#4 (bytes 0) [draw false 8#64 0#64 [4, 4]] with
        platform := { Platform.atReset with
          answers := [⟨none, [], 0x1004#64, 4, ⟨.load, true, false, true⟩, some (.platform 7)⟩] } }
      0x2003#64
      = some ⟨0x2000#64, 0x1000#64, 0x14#64, 0b1111#4,
          some (.memoryFault (.platform 7) 0x1004#64 4 ⟨.load, true, false, true⟩), 0#64, 0xA3#8⟩ := by decide +kernel

theorem test_cpyfm_basic :
    seen cpyfm v15A 0x2010#64 = some ⟨0x2014#64, 0x1014#64, 0xFFFFFFFFFFFFFFFD#64, 0b0000#4, none, 4#64, 0xB0#8⟩ ∧
    seen cpyfm v15B 0x2011#64 = some ⟨0x2011#64, 0x1011#64, 3#64, 0b0010#4, none, 4#64, 0x00#8⟩ := by decide +kernel

/-- V17, option A drawn with C = 1; P5: the write of the second block runs off the writable range. -/
theorem test_cpyfm_mismatch_and_fault :
    seen cpyfm { v15A with flags := Flags.ofNzcv 0b0010#4 } 0x2004#64
      = some ⟨0x2014#64, 0x1014#64, 0xFFFFFFFFFFFFFFF0#64, 0b0010#4,
          some (.memCopyMismatch ⟨true, 0, 1, 2, true, false, 0#4⟩), 0#64, 0x00#8⟩ ∧
    seen cpyfm { v15B with
        platform := ⟨[⟨0x1000, 0x14, true, false, false, false⟩, ⟨0x2000, 0x10, false, true, false, false⟩], []⟩ }
      0x200C#64
      = some ⟨0x200C#64, 0x100C#64, 8#64, 0b0010#4,
          some (.memoryFault .notDeclared 0x200C#64 5 ⟨.store, true, false, true⟩), 0#64, 0x00#8⟩ := by decide +kernel

theorem test_cpyfe_basic :
    seen cpyfe v21A 0x2013#64 = some ⟨0x2014#64, 0x1014#64, 0#64, 0b0000#4, none, 4#64, 0xB3#8⟩ ∧
    seen cpyfe v21B 0x2013#64 = some ⟨0x2014#64, 0x1014#64, 0#64, 0b0110#4, none, 4#64, 0xB3#8⟩ := by decide +kernel

/-- V22 and V23: not what is left to the epilogue; ill-formed as drawn. -/
theorem test_cpyfe_mismatch :
    seen cpyfe v15A 0x2004#64
      = some ⟨0x2014#64, 0x1014#64, 0xFFFFFFFFFFFFFFF0#64, 0b0000#4,
          some (.memCopyMismatch ⟨true, 0, 1, 2, false, true, 0#4⟩), 0#64, 0x00#8⟩ ∧
    seen cpyfe { v21B with draws := [{ draw false 0#64 3#64 [3] with illformedE := true }] } 0x2011#64
      = some ⟨0x2011#64, 0x1011#64, 3#64, 0b0110#4,
          some (.memCopyMismatch ⟨false, 0, 1, 2, false, true, 0#4⟩), 0#64, 0x00#8⟩ := by decide +kernel

/-- From reset, a placed word is the first instruction that runs: with X0 to X30 all 0 nothing is copied. -/
theorem test_first_step :
    (match step (State.reset.withFetchWord 32 0x19410440) with | .next t => some (t.pc, t.fault) | _ => none)
      = some (4#64, none) := by decide +kernel

/-! ### Witnesses: for each statement with hypotheses, a state and operands that meet them all -/

/-- The reset platform faults no access. -/
theorem reset_admits (m : Memory) (k : Nat) (addr : Word) (n : Nat) (acc : AccDesc) :
    Platform.atReset.memFault m k addr n acc = none := by
  obtain ⟨op, p, nt, mo⟩ := acc
  cases op <;> cases p <;> simp [Platform.memFault, Platform.atReset, Platform.admits, Region.permits, Region.covers] <;>
    exact fun i _ => byteAddr_lt addr i

/-- A state with the reset platform and no text can copy anything. -/
theorem canCopy_of_reset {s : State} (hp : s.platform = Platform.atReset) (ht : s.text = []) (options : BitVec 4)
    (src dst : Word) (k : Nat) : s.canCopy options src dst k :=
  ⟨fun _ _ _ _ _ _ =>
      ⟨by simp only [State.memFault, State.withBlocks, hp]; exact reset_admits ..,
        by simp only [State.memFault, State.withBlocks, State.access, hp]; exact reset_admits ..⟩,
    fun _ _ => by rw [ht]; rfl⟩

/-- Whether an instruction completes: a next state with no fault. -/
def completes (i : Instr) (s : State) : Bool :=
  match exec i s with
  | .next t => t.fault.isNone
  | _ => false

theorem next_of_completes {i : Instr} {s : State} (h : completes i s = true) :
    ∃ t, exec i s = .next t ∧ t.fault = none := by
  unfold completes at h
  split at h
  · exact ⟨_, by assumption, by simpa using h⟩
  · cases h

/-- Whether an instruction records a fault that `p` accepts. -/
def raises (p : Fault → Bool) (i : Instr) (s : State) : Bool :=
  match exec i s with
  | .next t => t.fault.any p
  | _ => false

theorem next_of_raises {p : Fault → Bool} {i : Instr} {s : State} (h : raises p i s = true) :
    ∃ t f, exec i s = .next t ∧ t.fault = some f ∧ p f = true := by
  unfold raises at h
  split at h
  · obtain ⟨f, hf, hp⟩ := (Option.any_eq_true _ _).mp h
    exact ⟨_, f, by assumption, hf, hp⟩
  · cases h

def isMemoryFault : Fault → Bool
  | .memoryFault _ _ _ _ => true
  | _ => false

/-- `s` with a platform that declares nothing. -/
def noMemory (s : State) : State := { s with platform := ⟨[], []⟩ }

/-- `s` with one byte of program text, at `a`. -/
def textAt (a : Nat) (s : State) : State := { s with text := [(a, 0x40#8)] }

/-- `s` with CPYFP of V1 in the text at pc. -/
def fetching (s : State) : State := s.withFetchWord 32 0x19010440

theorem witness_DecodeOfEncodeIsIdentity :
    cpyfp.wf = true ∧ cpyfm.wf = true ∧ (Instr.cpyfe 3#2 0#4 31#5 31#5 31#5).wf = true := by decide

theorem witness_EncodeOfDecodeIsIdentity : decodeWord 0xD99F07FF#32 = .ok (.cpyfe 3#2 0#4 31#5 31#5 31#5) := by decide

theorem witness_TableRowsDecode :
    0xD91F07FF#32 &&& 0x3FE0FC00#32 = 0x19000400#32 ∧ 0x19400400#32 &&& 0x3FE0FC00#32 = 0x19400400#32 ∧
    0x195D079E#32 &&& 0x3FE0FC00#32 = 0x19400400#32 ∧ 0x199D079E#32 &&& 0x3FE0FC00#32 = 0x19800400#32 ∧
    (0x19C10440#32 &&& 0x3FE0FC00#32 ≠ 0x19000400#32 ∧ 0x19C10440#32 &&& 0x3FE0FC00#32 ≠ 0x19400400#32 ∧
      0x19C10440#32 &&& 0x3FE0FC00#32 ≠ 0x19800400#32) := by decide

theorem witness_StepRunsDecodedInstruction :
    let s := fetching State.reset
    s.fault = none ∧ s.pc.toNat % 4 = 0 ∧ s.pc.toNat ≠ 2 ^ 64 - 4 ∧
    s.text.find s.pc.toNat = some 0x40#8 ∧ s.text.find (s.pc.toNat + 1) = some 0x04#8 ∧
    s.text.find (s.pc.toNat + 2) = some 0x01#8 ∧ s.text.find (s.pc.toNat + 3) = some 0x19#8 ∧
    decodeWord (0x19#8 ++ 0x01#8 ++ 0x04#8 ++ 0x40#8) = .ok cpyfp := by decide +kernel

/-- One state for each clause; the last aligned pc that is not refused for its advance is 2^64 - 8. -/
theorem witness_FetchRefusals :
    State.reset.fault = none ∧ ({ State.reset with pc := 0x400002#64 } : State).pc.toNat % 4 ≠ 0 ∧
    ({ State.reset with pc := 0xFFFFFFFFFFFFFFFC#64 } : State).pc.toNat = 2 ^ 64 - 4 ∧
    (let s : State := { State.reset with pc := 0xFFFFFFFFFFFFFFF8#64 }
     s.pc.toNat % 4 = 0 ∧ s.pc.toNat ≠ 2 ^ 64 - 4 ∧ s.text.find (s.pc.toNat + 3) = none) := by decide +kernel

theorem witness_WordsOffTheTableAreRefused :
    (∀ w ∈ [0x19C10440#32, 0x19014440#32, 0x39010440#32],
      (State.reset.withFetchWord 32 w.toNat).fault = none ∧
      (match (State.reset.withFetchWord 32 w.toNat).fetch with
       | .ok b => b = bytesOfWord w
       | .error _ => False)) ∧
    0x19C10440#32 &&& 0x3FE0FC00#32 = 0x19C00400#32 ∧
    (0x19014440#32 &&& 0x3F200C00#32 = 0x19000400#32 ∧ 0x19014440#32 &&& 0xF000#32 ≠ 0#32) ∧
    0x39010440#32 &&& 0x3F200C00#32 ≠ 0x19000400#32 := by
  refine ⟨?_, by decide, by decide, by decide⟩
  intro w h
  simp only [List.mem_cons, List.not_mem_nil, or_false] at h
  rcases h with rfl | rfl | rfl <;> exact ⟨rfl, rfl⟩

theorem witness_FaultedStateHasNoFurtherStep :
    (State.reset.raise (.undefined .noFeature)).fault = some (.undefined .noFeature) := by decide

theorem witness_FeatureAndSizeFieldTestsComeFirst :
    ({ State.reset with cfg := { HwConfig.atReset with haveMops := false } } : State).cfg.haveMops = false ∧
    (State.reset.cfg.haveMops = true ∧ (3#2 : BitVec 2) ≠ 0b00#2) := by decide

/-- The state that draws `d` first. -/
def drawing (d : Draws) : State := { State.reset with draws := [d] }

theorem witness_EnableCheckAndRegisterClash :
    (let s : State := { State.reset with mopsEnabled := false }
     s.cfg.haveMops = true ∧ s.mopsEnabled = false) ∧
    (let s := drawing { Draws.atReset with overlap31 := .undef }
     s.cfg.haveMops = true ∧ s.mopsEnabled = true ∧ s.now.overlap31 = .undef) ∧
    (State.reset.mopsEnabled = true ∧ State.reset.now.overlap31 = .nop) ∧
    ∃ rs rn rd : BitVec 5, rs = rn ∨ rs = rd ∨ rn = rd ∨ rd = 31#5 ∨ rs = 31#5 ∨ rn = 31#5 := by
  refine ⟨by decide, by decide, by decide, 1#5, 2#5, 31#5, by decide⟩

theorem witness_AccessAttributesForAnyOptions :
    ({ State.reset with uao := true } : State).cfg.haveUao = true ∧ ({ State.reset with uao := true } : State).uao = true ∧
    (¬ (State.reset.cfg.haveUao = true ∧ State.reset.uao = true) ∧ State.reset.el = .el1 ∧
      ¬ (State.reset.cfg.el2Enabled = true ∧ State.reset.cfg.haveNv = true ∧ State.reset.hcr.nv = true ∧
        State.reset.hcr.nv1 = true)) ∧
    (let s : State := { State.reset with hcr := ⟨true, true, true, true⟩ }
     ¬ (s.cfg.haveUao = true ∧ s.uao = true) ∧
      (s.cfg.el2Enabled = true ∧ s.cfg.haveNv = true ∧ s.hcr.nv = true ∧ s.hcr.nv1 = true) ∧
      (s.cfg.haveVhe = true ∧ s.hcr.e2h = true ∧ s.hcr.tge = true)) ∧
    ∀ el, ({ State.reset with el := el } : State).el = el := by
  refine ⟨by decide, by decide, by decide, by decide, fun _ => rfl⟩

/-- CPYFM passes its tests where C names the option and its parameters are not rejected. -/
theorem main_testsPass {sz : BitVec 2} {op2 : BitVec 4} {rs rn rd : BitVec 5} {s : State} {r : CopyRegs}
    (h : optionMismatch r s = false) (hi : illformed s.now.optionA s.now.illformedM (s.readX r.n) = false) :
    testsPass (.cpyfm sz op2 rs rn rd) s r := ⟨h, by unfold mainRejects; rw [hi]; decide⟩

/-- CPYFE passes its tests where, besides, the size is what is left to it. -/
theorem epilogue_testsPass {sz : BitVec 2} {op2 : BitVec 4} {rs rn rd : BitVec 5} {s : State} {r : CopyRegs}
    (h : optionMismatch r s = false) (hp : s.readX r.n = s.post r)
    (hi : illformed s.now.optionA s.now.illformedE (s.readX r.n) = false) :
    testsPass (.cpyfe sz op2 rs rn rd) s r := ⟨h, by unfold epilogueRejects; simp [hi, ← hp]⟩

/-- The operations that V11, V15 and V21 run come to copy something. -/
theorem operations_copy :
    (checksOf cpyfp v11A = .run regs ∧ testsPass cpyfp v11A regs ∧ 1 ≤ stageBytes cpyfp v11A regs) ∧
    (checksOf cpyfm v15A = .run regs ∧ testsPass cpyfm v15A regs ∧ 1 ≤ stageBytes cpyfm v15A regs) ∧
    (checksOf cpyfe v21B = .run regs ∧ testsPass cpyfe v21B regs ∧ 1 ≤ stageBytes cpyfe v21B regs) :=
  ⟨⟨by decide, trivial, by decide +kernel⟩, ⟨by decide, main_testsPass (by decide) (by decide +kernel), by decide +kernel⟩,
    ⟨by decide, epilogue_testsPass (by decide) (by decide +kernel) (by decide +kernel), by decide +kernel⟩⟩

/-- `s` at EL0, where nothing may be read unprivileged. -/
def unreadable (s : State) : State := { s with el := .el0, platform := ⟨[⟨0, 2 ^ 64, true, true, false, true⟩], []⟩ }

/-- The level and the platform are looked at by no check: the operations are those of operations_copy. -/
theorem witness_UnprivilegedReadWithoutRightFaults :
    (optionsOf cpyfp = 0b0000#4 ∧ checksOf cpyfp (unreadable v11A) = .run regs ∧
      testsPass cpyfp (unreadable v11A) regs ∧ 1 ≤ stageBytes cpyfp (unreadable v11A) regs) ∧
    (optionsOf cpyfm = 0b0000#4 ∧ checksOf cpyfm (unreadable v15A) = .run regs ∧
      testsPass cpyfm (unreadable v15A) regs ∧ 1 ≤ stageBytes cpyfm (unreadable v15A) regs) ∧
    (optionsOf cpyfe = 0b0000#4 ∧ checksOf cpyfe (unreadable v21B) = .run regs ∧
      testsPass cpyfe (unreadable v21B) regs ∧ 1 ≤ stageBytes cpyfe (unreadable v21B) regs) ∧
    ∀ s, (unreadable s).el = .el0 ∧ (unreadable s).platform.answers = [] ∧
      ∀ g ∈ (unreadable s).platform.regions, g.unprivRead = false :=
  ⟨⟨rfl, operations_copy.1⟩, ⟨rfl, operations_copy.2.1⟩, ⟨rfl, operations_copy.2.2⟩,
    fun _ => ⟨rfl, rfl, fun _ h => by rw [List.mem_singleton.mp h]⟩⟩

theorem witness_WriteChangesExactlyItsBytes :
    let acc : AccDesc := ⟨.store, true, false, true⟩
    [1#8, 2#8].length ≤ 2 ^ 64 ∧ (noMemory v11A).memFault 0x2000#64 2 acc = some .notDeclared ∧
    v11A.memFault 0x2000#64 2 acc = none ∧ ¬ (textAt 0x2001 v11A).clearOfText 0x2000#64 2 ∧
    v11A.clearOfText 0x2000#64 2 :=
  ⟨by decide, by decide +kernel, by decide +kernel, fun h => by have := h 1 (by decide); revert this; decide,
    fun _ _ => rfl⟩

theorem witness_ReadReturnsTheBytes :
    (noMemory v11A).memFault 0x1000#64 4 ⟨.load, true, false, true⟩ = some .notDeclared ∧
    v11A.memFault 0x1000#64 4 ⟨.load, true, false, true⟩ = none := by decide +kernel

theorem witness_OneBlockCopiesItsBytes :
    (4 : Nat) ≤ 2 ^ 64 ∧ ∃ t, moveBlock v11A 0x1000#64 0x2000#64 4 ⟨.load, true, false, true⟩
      ⟨.store, true, false, true⟩ = .done t () := ⟨by decide, _, rfl⟩

theorem witness_AccessAdmittedInsideDeclaredRanges : Platform.atReset.answers = [] := by decide

theorem witness_PreSizeIsExactlyAdmissible :
    (20#64 : Word).toInt > 0 ∧ (-16#64 : Word).toInt ≤ 0 ∧ (0#64 : Word) = 0#64 := by decide

theorem witness_PostSizeIsExactlyAdmissible : (-16#64 : Word).toInt ≤ 0 ∧ (0#64 : Word).toInt ≤ 0 := by decide

theorem witness_BlockSizeIsExactlyAdmissible :
    (1 : Nat) ≤ 4 ∧ (16 : Nat) ≤ State.reset.cfg.blockLimit := by decide

theorem witness_LoopAIsTheWhileLoop :
    magnitude true 0#64 ≤ 0 ∧ magnitude true (-4#64) ≤ 4 ∧ (-4#64 : Word) ≠ 0#64 := by decide +kernel

theorem witness_LoopBIsTheWhileLoop : magnitude false 0#64 ≤ 0 ∧ magnitude false 4#64 ≤ 4 ∧ (4#64 : Word) ≠ 0#64 := by
  decide

theorem witness_CpyfpCompletes :
    (checks v11A 0#2 1#5 2#5 0#5 = .run regs ∧ v11A.now.optionA = true ∧
      v11A.canCopy 0#4 (v11A.readX regs.s) (v11A.readX regs.d) (prologueBytes v11A regs)) ∧
    (checks v11B 0#2 1#5 2#5 0#5 = .run regs ∧ v11B.now.optionA = false ∧
      v11B.canCopy 0#4 (v11B.readX regs.s) (v11B.readX regs.d) (prologueBytes v11B regs)) :=
  ⟨⟨by decide, by decide, canCopy_of_reset rfl rfl ..⟩, ⟨by decide, by decide, canCopy_of_reset rfl rfl ..⟩⟩

theorem witness_CpyfpOfZeroLength :
    checks State.reset 0#2 1#5 2#5 0#5 = .run regs ∧ State.reset.readX regs.n = 0#64 := by decide

/-- A prologue that runs and one that the register numbers make a no-operation. -/
theorem witness_CpyfpFrame :
    (∃ t, exec cpyfp v11A = .next t ∧ t.fault = none) ∧ checks v11A 0#2 1#5 2#5 0#5 = .run regs ∧
    (∃ t, exec (.cpyfp 0#2 0#4 1#5 2#5 1#5) v11A = .next t ∧ t.fault = none) ∧
    ∀ r, checks v11A 0#2 1#5 2#5 1#5 ≠ .run r :=
  ⟨next_of_completes (by decide +kernel), by decide, next_of_completes (by decide +kernel), fun _ h => by
    have : checks v11A 0#2 1#5 2#5 1#5 = .nop := by decide
    rw [this] at h; cases h⟩

theorem witness_CpyfpMemoryFault :
    (noMemory v11A).fault = none ∧
    ∃ t f, exec cpyfp (noMemory v11A) = .next t ∧ t.fault = some f ∧ isMemoryFault f = true :=
  ⟨by decide, next_of_raises (by decide +kernel)⟩

theorem witness_SaturationAndNegation :
    (0x7FFFFFFFFFFFFFFF#64 : Word).toNat < 2 ^ 63 ∧ 2 ^ 63 ≤ (0x8000000000000000#64 : Word).toNat := by decide

theorem witness_CpyfmCompletes :
    (checks v15A 0#2 1#5 2#5 0#5 = .run regs ∧ optionMismatch regs v15A = false ∧ v15A.now.optionA = true ∧
      illformed v15A.now.optionA v15A.now.illformedM (v15A.readX regs.n) = false ∧
      v15A.canCopy 0#4 (nextSource v15A regs) (nextDest v15A regs)
        (remaining v15A regs - leftForEpilogue v15A regs)) ∧
    (checks v15B 0#2 1#5 2#5 0#5 = .run regs ∧ optionMismatch regs v15B = false ∧ v15B.now.optionA = false ∧
      illformed v15B.now.optionA v15B.now.illformedM (v15B.readX regs.n) = false ∧
      v15B.canCopy 0#4 (nextSource v15B regs) (nextDest v15B regs)
        (remaining v15B regs - leftForEpilogue v15B regs)) :=
  ⟨⟨by decide, by decide, by decide, by decide +kernel, canCopy_of_reset rfl rfl ..⟩,
    ⟨by decide, by decide, by decide, by decide +kernel, canCopy_of_reset rfl rfl ..⟩⟩

theorem witness_CpyfeCompletes :
    (checks v21A 0#2 1#5 2#5 0#5 = .run regs ∧ optionMismatch regs v21A = false ∧ v21A.now.optionA = true ∧
      v21A.readX regs.n = v21A.post regs ∧
      illformed v21A.now.optionA v21A.now.illformedE (v21A.readX regs.n) = false ∧
      v21A.canCopy 0#4 (nextSource v21A regs) (nextDest v21A regs) (remaining v21A regs)) ∧
    (checks v21B 0#2 1#5 2#5 0#5 = .run regs ∧ optionMismatch regs v21B = false ∧ v21B.now.optionA = false ∧
      v21B.readX regs.n = v21B.post regs ∧
      illformed v21B.now.optionA v21B.now.illformedE (v21B.readX regs.n) = false ∧
      v21B.canCopy 0#4 (nextSource v21B regs) (nextDest v21B regs) (remaining v21B regs)) :=
  ⟨⟨by decide, by decide, by decide, by decide +kernel, by decide +kernel, canCopy_of_reset rfl rfl ..⟩,
    ⟨by decide, by decide, by decide, by decide +kernel, by decide +kernel, canCopy_of_reset rfl rfl ..⟩⟩

/-- The reset registers are all zero; once the zero size is not checked, once C names the option. -/
theorem witness_MainAndEpilogueOfZeroSize :
    checks State.reset 0#2 1#5 2#5 0#5 = .run regs ∧ State.reset.readX regs.n = 0#64 ∧
    State.reset.now.zeroSizeCheck = false ∧ State.reset.now.illformedM = false ∧ State.reset.now.illformedE = false ∧
    (let s := drawing { Draws.atReset with optionA := false, zeroSizeCheck := true }
     checks { s with flags := ⟨false, false, true, false⟩ } 0#2 1#5 2#5 0#5 = .run regs ∧
     (({ s with flags := ⟨false, false, true, false⟩ } : State).flags.c = !s.now.optionA) ∧
     s.now.illformedM = false ∧ s.now.illformedE = false) := by decide

/-- V17 (a size that is not zero) and V18 (a zero size that is checked). -/
theorem witness_WrongOptionRaisesMismatch :
    (let s : State := { v15A with flags := Flags.ofNzcv 0b0010#4 }
     checks s 0#2 1#5 2#5 0#5 = .run regs ∧ s.readX regs.n ≠ 0#64 ∧ s.flags.c = s.now.optionA) ∧
    (let s : State := { drawing { Draws.atReset with zeroSizeCheck := true } with flags := Flags.ofNzcv 0b0010#4 }
     checks s 0#2 1#5 2#5 0#5 = .run regs ∧ s.now.zeroSizeCheck = true ∧ s.flags.c = s.now.optionA) := by decide

/-- V19 (both), V22, V23, and a zero size with a rejection drawn. -/
theorem witness_RejectedParametersRaiseMismatch :
    (let s : State := { v15B with draws := [{ draw false 0#64 3#64 [] with illformedM := true }] }
     checks s 0#2 1#5 2#5 0#5 = .run regs ∧ s.flags.c = !s.now.optionA ∧ s.now.illformedM = true) ∧
    (let s : State := v15A.writeX 2 5#64
     checks s 0#2 1#5 2#5 0#5 = .run regs ∧ s.flags.c = !s.now.optionA ∧ s.now.optionA = true ∧
       (s.readX regs.n).toInt > 0) ∧
    (checks v15A 0#2 1#5 2#5 0#5 = .run regs ∧ v15A.flags.c = !v15A.now.optionA ∧
      v15A.readX regs.n ≠ v15A.post regs) ∧
    (let s : State := drawing { Draws.atReset with illformedE := true }
     checks s 0#2 1#5 2#5 0#5 = .run regs ∧ s.now.zeroSizeCheck = false ∧ s.readX regs.n = 0#64 ∧
       s.now.illformedE = true) := by decide +kernel

/-- A main and an epilogue that run, under both options, and a main that is a no-operation. -/
theorem witness_MainAndEpilogueFrame :
    (∃ t, exec cpyfm v15A = .next t ∧ t.fault = none) ∧ (∃ t, exec cpyfm v15B = .next t ∧ t.fault = none) ∧
    (∃ t, exec cpyfe v21A = .next t ∧ t.fault = none) ∧ (∃ t, exec cpyfe v21B = .next t ∧ t.fault = none) ∧
    checks v15A 0#2 1#5 2#5 0#5 = .run regs ∧ v15A.now.optionA = true ∧
    (∃ t, exec (.cpyfm 0#2 0#4 31#5 2#5 0#5) v15A = .next t ∧ t.fault = none) ∧
    ∀ r, checks v15A 0#2 31#5 2#5 0#5 ≠ .run r :=
  ⟨next_of_completes (by decide +kernel), next_of_completes (by decide +kernel), next_of_completes (by decide +kernel),
    next_of_completes (by decide +kernel), by decide, by decide, next_of_completes (by decide +kernel), fun _ h => by
    have : checks v15A 0#2 31#5 2#5 0#5 = .nop := by decide
    rw [this] at h; cases h⟩

theorem witness_MainAndEpilogueMemoryFault :
    (noMemory v15A).fault = none ∧ (noMemory v21B).fault = none ∧
    (∃ t f, exec cpyfm (noMemory v15A) = .next t ∧ t.fault = some f ∧ isMemoryFault f = true) ∧
    ∃ t f, exec cpyfe (noMemory v21B) = .next t ∧ t.fault = some f ∧ isMemoryFault f = true :=
  ⟨by decide, by decide, next_of_raises (by decide +kernel), next_of_raises (by decide +kernel)⟩

theorem witness_OutcomesOfEachInstruction : State.reset.fault = none := by decide

theorem witness_UndefinedAndMismatchArePrecise :
    v15A.fault = none ∧
    (∃ t f, exec (.cpyfm 1#2 0#4 1#5 2#5 0#5) v15A = .next t ∧ t.fault = some f ∧
      decide (f = .undefined .sizeField) = true) ∧
    ∃ t f, exec cpyfe v15A = .next t ∧ t.fault = some f ∧
      decide (f = .memCopyMismatch ⟨true, 0, 1, 2, false, true, 0#4⟩) = true :=
  ⟨by decide, next_of_raises (by decide +kernel), next_of_raises (by decide +kernel)⟩

theorem witness_ProgramCounterRule :
    v11A.fault = none ∧ (∃ t, exec cpyfp v11A = .next t ∧ t.fault = none) ∧
    ∃ t f, exec cpyfe v15A = .next t ∧ t.fault = some f ∧ (fun _ => true) f = true :=
  ⟨by decide, next_of_completes (by decide +kernel), next_of_raises (by decide +kernel)⟩

/-- CPYFP completing, raising, and as a no-operation; CPYFM; CPYFE. -/
theorem witness_FlagRule :
    v11A.fault = none ∧ checks v11A 0#2 1#5 2#5 0#5 = .run regs ∧ (∃ t, exec cpyfp v11A = .next t ∧ t.fault = none) ∧
    (∃ t f, exec cpyfp (noMemory v11A) = .next t ∧ t.fault = some f ∧ isMemoryFault f = true) ∧
    (∃ t, exec (.cpyfp 0#2 0#4 1#5 2#5 1#5) v11A = .next t ∧ t.fault = none) ∧
    (∃ t, exec cpyfm v15B = .next t ∧ t.fault = none) ∧ ∃ t, exec cpyfe v21B = .next t ∧ t.fault = none :=
  ⟨by decide, by decide, next_of_completes (by decide +kernel), next_of_raises (by decide +kernel),
    next_of_completes (by decide +kernel), next_of_completes (by decide +kernel), next_of_completes (by decide +kernel)⟩

/-- A step that runs CPYFP from the text. -/
theorem step_fetching : ∃ t, step (fetching v11A) = .next t := ⟨_, rfl⟩

theorem witness_NoStepWritesControlState : ∃ t, step (fetching v11A) = .next t := step_fetching

theorem witness_BytesUnderTheTextStay :
    (∃ t, exec cpyfp (textAt 0x2004 v11A) = .next t ∧ t.fault = none) ∧
    (textAt 0x2004 v11A).text.find (0x2004#64 : Word).toNat ≠ none :=
  ⟨next_of_completes (by decide +kernel), by decide⟩

theorem witness_StepKeepsInvariant : (fetching v11A).inv = true ∧ ∃ t, step (fetching v11A) = .next t :=
  ⟨by decide +kernel, step_fetching⟩

/-- Source below the destination without overlap (V11, V15, V21), and above it with overlap (P4). -/
theorem witness_StagesCopyForward :
    checks v11A 0#2 1#5 2#5 0#5 = .run regs ∧ v11A.fault = none ∧ (∃ t, exec cpyfp v11A = .next t ∧ t.fault = none) ∧
    copiesForward (v11A.readX regs.s) (v11A.readX regs.d) (prologueBytes v11A regs) ∧
    checks v15A 0#2 1#5 2#5 0#5 = .run regs ∧ v15A.fault = none ∧ (∃ t, exec cpyfm v15A = .next t ∧ t.fault = none) ∧
    copiesForward (nextSource v15A regs) (nextDest v15A regs) (remaining v15A regs - leftForEpilogue v15A regs) ∧
    checks v21B 0#2 1#5 2#5 0#5 = .run regs ∧ v21B.fault = none ∧ (∃ t, exec cpyfe v21B = .next t ∧ t.fault = none) ∧
    copiesForward (nextSource v21B regs) (nextDest v21B regs) (remaining v21B regs) ∧
    copiesForward 0x1004#64 0x1000#64 8 := by
  refine ⟨by decide, by decide, next_of_completes (by decide +kernel), ?_, by decide, by decide,
    next_of_completes (by decide +kernel), ?_, by decide, by decide, next_of_completes (by decide +kernel), ?_, ?_⟩ <;>
    unfold copiesForward <;> decide +kernel

/-- Source and destination made one, for each of the three. -/
theorem witness_CopyOntoItselfChangesNoByte :
    (let s := v11A.writeX 0 0x1000#64
     checksOf cpyfp s = .run regs ∧ stageSource cpyfp s regs = stageDest cpyfp s regs ∧
      ∃ t, exec cpyfp s = .next t ∧ t.fault = none) ∧
    (let s := v15A.writeX 0 0x1014#64
     checksOf cpyfm s = .run regs ∧ stageSource cpyfm s regs = stageDest cpyfm s regs ∧
      ∃ t, exec cpyfm s = .next t ∧ t.fault = none) ∧
    (let s := v21B.writeX 0 0x1011#64
     checksOf cpyfe s = .run regs ∧ stageSource cpyfe s regs = stageDest cpyfe s regs ∧
      ∃ t, exec cpyfe s = .next t ∧ t.fault = none) :=
  ⟨⟨by decide, by decide, next_of_completes (by decide +kernel)⟩,
    ⟨by decide, by decide +kernel, next_of_completes (by decide +kernel)⟩,
    ⟨by decide, by decide +kernel, next_of_completes (by decide +kernel)⟩⟩

/-- V15 is in the format of a copy of 20 bytes with 16 to go; V21, with 3 to go. -/
theorem witness_FormatsAreEstablishedAndKept :
    checks v11A 0#2 1#5 2#5 0#5 = .run regs ∧ v11A.fault = none ∧ (∃ t, exec cpyfp v11A = .next t ∧ t.fault = none) ∧
    v15A.inFormat v15A.now.optionA regs 0x1000#64 0x2000#64 20 16 ∧
    (∃ t, exec cpyfm v15A = .next t ∧ t.fault = none) ∧
    v21B.inFormat v21B.now.optionA regs 0x1000#64 0x2000#64 20 3 ∧ ∃ t, exec cpyfe v21B = .next t ∧ t.fault = none :=
  ⟨by decide, by decide, next_of_completes (by decide +kernel), by unfold State.inFormat; decide +kernel,
    next_of_completes (by decide +kernel), by unfold State.inFormat; decide +kernel,
    next_of_completes (by decide +kernel)⟩

/-- P1: V11 with the draws of all three instructions. -/
def p1 : State :=
  { v11A with draws := [draw true (-4#64) 0#64 [4], draw true 0#64 (-3#64) [8, 5], draw true 0#64 (-3#64) [3]] }

/-- After the prologue of P1 and its main instruction the third draw is what is left (the last hypothesis). -/
theorem witness_SequenceCopiesTheWholeSize :
    checks p1 0#2 1#5 2#5 0#5 = .run regs ∧ p1.fault = none ∧
    p1.draws = [draw true (-4#64) 0#64 [4], draw true 0#64 (-3#64) [8, 5], draw true 0#64 (-3#64) [3]] ∧
    p1.canCopy 0#4 (p1.readX regs.s) (p1.readX regs.d) (saturate (p1.readX regs.n)).toNat ∧
    copiesForward (p1.readX regs.s) (p1.readX regs.d) (saturate (p1.readX regs.n)).toNat ∧
    (match exec cpyfp p1 with
     | .next s1 =>
       (match exec cpyfm s1 with
        | .next s2 => s2.readX regs.n
        | _ => 0#64)
     | _ => 0#64) = (draw true 0#64 (-3#64) [3]).postSize :=
  ⟨by decide, by decide, rfl, canCopy_of_reset rfl rfl .., by unfold copiesForward; decide +kernel, by decide +kernel⟩

/-- The feature absent, and an sz other than 00. -/
theorem witness_UndefinedEncodingsOfTheClass :
    ({ State.reset with cfg := { HwConfig.atReset with haveMops := false } } : State).cfg.haveMops = false ∧
    sizeFieldOf (.cpyfe 1#2 0#4 1#5 2#5 0#5) ≠ 0b00#2 ∧ sizeFieldOf (.cpyfp 3#2 0#4 1#5 2#5 0#5) ≠ 0b00#2 := by
  decide

theorem witness_UaoRule :
    ({ State.reset with cfg := { HwConfig.atReset with haveUao := false } } : State).cfg.haveUao = false ∧
    (({ State.reset with uao := true } : State).cfg.haveUao = true ∧ ({ State.reset with uao := true } : State).uao = true) ∧
    (∃ t, exec cpyfp v11A = .next t ∧ t.fault = none) ∧ cpyfp.wf = true :=
  ⟨by decide, by decide, next_of_completes (by decide +kernel), by decide⟩

/-- `s` with a platform that faults one access where exactly one has been performed before it, and no other. -/
def faultingAfterOne (addr : Word) (n : Nat) (acc : AccDesc) (s : State) : State :=
  { s with platform := { Platform.atReset with answers := [⟨some 1, [], addr, n, acc, some (.platform 7)⟩] } }

/-- A first read that fails, and a first write that fails where the read is admitted, for each of the three. -/
theorem witness_FirstFailingAccessRaisesMemoryFault :
    (checksOf cpyfp v11A = .run regs ∧ testsPass cpyfp v11A regs ∧ 1 ≤ stageBytes cpyfp v11A regs) ∧
    (checksOf cpyfm v15A = .run regs ∧ testsPass cpyfm v15A regs ∧ 1 ≤ stageBytes cpyfm v15A regs) ∧
    (checksOf cpyfe v21B = .run regs ∧ testsPass cpyfe v21B regs ∧ 1 ≤ stageBytes cpyfe v21B regs) ∧
    (∀ i ∈ [(cpyfp, v11A), (cpyfm, v15A), (cpyfe, v21B)],
      (noMemory i.2).memFault (stageSource i.1 i.2 regs) (i.2.blockSize 0 (stageBytes i.1 i.2 regs))
        (i.2.readDesc 0#4) = some .notDeclared ∧
      (let s := faultingAfterOne (stageDest i.1 i.2 regs) (i.2.blockSize 0 (stageBytes i.1 i.2 regs))
        (i.2.writeDesc 0#4) i.2
       s.memFault (stageSource i.1 i.2 regs) (i.2.blockSize 0 (stageBytes i.1 i.2 regs)) (s.readDesc 0#4) = none ∧
       s.access.memFault (stageDest i.1 i.2 regs) (i.2.blockSize 0 (stageBytes i.1 i.2 regs)) (s.writeDesc 0#4)
        = some (.platform 7))) :=
  ⟨operations_copy.1, operations_copy.2.1, operations_copy.2.2, by decide +kernel⟩

/-- The same access, answered differently after another number of accesses and for other bytes held. -/
theorem test_memFault_varies :
    let acc : AccDesc := ⟨.load, true, false, true⟩
    let p : Platform := { Platform.atReset with
      answers := [⟨some 3, [], 0x1000#64, 4, acc, some (.platform 1)⟩,
        ⟨none, [(0x2000, 5#8)], 0x1000#64, 4, acc, some (.platform 2)⟩] }
    p.memFault [] 2 0x1000#64 4 acc = none ∧ p.memFault [] 3 0x1000#64 4 acc = some (.platform 1) ∧
    p.memFault [(0x2000, 5#8)] 2 0x1000#64 4 acc = some (.platform 2) ∧
    p.memFault [(0x2000, 6#8)] 2 0x1000#64 4 acc = none := by decide +kernel

/-- P5's memory: 20 bytes to read, 16 bytes to write, of which 16 are copied. -/
theorem witness_DeclaredRangesAdmitTheCopy :
    let g : Region := ⟨0x1000, 0x14, true, false, false, false⟩
    let h : Region := ⟨0x2000, 0x10, false, true, false, false⟩
    let s : State := { v11A with platform := ⟨[g, h], []⟩ }
    s.platform.answers = [] ∧ g ∈ s.platform.regions ∧ h ∈ s.platform.regions ∧
    g.permits (s.readDesc 0#4) = true ∧ h.permits (s.writeDesc 0#4) = true ∧
    (∀ i, i < 16 → g.base ≤ (0x1000#64 + BitVec.ofNat 64 i : Word).toNat ∧
      (0x1000#64 + BitVec.ofNat 64 i : Word).toNat < g.base + g.size) ∧
    (∀ i, i < 16 → h.base ≤ (0x2000#64 + BitVec.ofNat 64 i : Word).toNat ∧
      (0x2000#64 + BitVec.ofNat 64 i : Word).toNat < h.base + h.size) ∧
    s.clearOfText 0x2000#64 16 :=
  ⟨rfl, by decide, by decide, by decide, by decide, by decide +kernel, by decide +kernel, fun _ _ => rfl⟩

/-- One step of a run, completed. -/
theorem run_fetching : ∃ t, Sys2Proof.core.run 1 (fetching v11A) = .next t ∧ t.fault = none := ⟨_, rfl, rfl⟩

theorem witness_LaunchValuesHoldThroughTheRun : ∃ t, Sys2Proof.core.run 1 (fetching v11A) = .next t :=
  run_fetching.imp fun _ h => h.1

/-- How a run ends, without the state. -/
def endOf (e : RunEnd) : Option (Fault ⊕ Refusal) × Bool :=
  match e with
  | .faulted f _ => (some (.inl f), false)
  | .refused r _ => (some (.inr r), false)
  | .final _ => (none, true)
  | .running _ => (none, false)

/-- A run that ends each way (70_reset_and_hazards.md R167): final at its end address; faulted; refused past the text;
and still running. -/
theorem witness_RunEndsInItsThreeWays :
    endOf (runTo 4#64 5 (fetching v11A)) = (none, true) ∧
    endOf (runTo 4#64 5 (noMemory (fetching v11A)))
      = (some (.inl (.memoryFault .notDeclared 0x1000#64 4 ⟨.load, true, false, true⟩)), false) ∧
    endOf (runTo 8#64 5 (fetching v11A)) = (some (.inr .noProgramText), false) ∧
    endOf (runTo 8#64 1 (fetching v11A)) = (none, false) ∧
    (fetching v11A).pc = 0#64 ∧ (fetching v11A).fault = none := by decide +kernel

theorem witness_CompletedProgramIsFinalAtItsEnd :
    4 * 1 < 2 ^ 64 ∧ (fetching v11A).fault = none ∧
    ∃ t, Sys2Proof.core.run 1 (fetching v11A) = .next t ∧ t.fault = none := ⟨by decide, rfl, run_fetching⟩

end Sys2Proof.Tests
end

section
/-! PROOFS. The control state of a run: no update of the state writes it, so no instruction, no step and no run does
(R24, R25, R26, R160). -/

namespace Sys2Proof.Machine

/-! ### The control state as a relation between states -/

@[simp] theorem sameControl_refl (s : State) : sameControl s s := ⟨rfl, rfl, rfl, rfl, rfl, rfl, rfl⟩

theorem sameControl.trans {s t u : State} (hst : sameControl s t) (htu : sameControl t u) : sameControl s u := by
  obtain ⟨hel, huao, hhcr, htext, hcfg, hmops, hplat⟩ := hst
  obtain ⟨hel', huao', hhcr', htext', hcfg', hmops', hplat'⟩ := htu
  exact ⟨hel'.trans hel, huao'.trans huao, hhcr'.trans hhcr, htext'.trans htext, hcfg'.trans hcfg,
    hmops'.trans hmops, hplat'.trans hplat⟩

@[simp] theorem sameControl_raise (s : State) (f : Fault) : sameControl s (s.raise f) := by simp [sameControl]

@[simp] theorem sameControl_access (s : State) : sameControl s s.access := by simp [sameControl]

@[simp] theorem sameControl_complete (s : State) : sameControl s s.complete := by simp [sameControl]

@[simp] theorem sameControl_duringStage (i : Instr) (s : State) (r : CopyRegs) (bs : List Nat) :
    sameControl s (duringStage i s r bs) := by simp [sameControl]

@[simp] theorem sameControl_stageDone (i : Instr) (s : State) (r : CopyRegs) (bs : List Nat) :
    sameControl s (stageDone i s r bs) := by simp [sameControl]

/-! ### Instructions -/

/-- A block that stops the instruction with a next state has raised, before or after its read. -/
theorem BlockStops.sameControl {t u : State} {src dst : Word} {n : Nat} {racc wacc : AccDesc}
    (h : BlockStops t src dst n racc wacc (.next u)) : sameControl t u := by
  rcases h with ⟨f, _, hu⟩ | ⟨_, f, _, hu⟩ | ⟨_, _, _, hu⟩
  · cases hu; exact sameControl_raise t _
  · cases hu; exact (sameControl_access t).trans (sameControl_raise _ _)
  · cases hu

/-- A mismatch is the raise of its record, whatever the instruction and the test that raised it. -/
theorem Mismatches.next_eq_raise {i : Instr} {s t : State} {r : CopyRegs} (h : Mismatches i s r (.next t)) :
    ∃ m, t = s.raise (.memCopyMismatch m) := by
  cases i with
  | cpyfp => exact h.elim
  | cpyfm | cpyfe =>
    obtain ⟨w, ht, _⟩ := h
    exact ⟨_, Host.Outcome.next.inj ht⟩

theorem StageEnds.sameControl {i : Instr} {s t : State} {r : CopyRegs} (h : StageEnds i s r (.next t)) :
    sameControl s t := by
  obtain ⟨bs, _, ⟨_, hdone⟩ | ⟨n, _, _, _, hstop⟩⟩ := h
  · cases hdone; exact sameControl_stageDone i s r bs
  · exact (sameControl_duringStage i s r bs).trans hstop.sameControl

theorem OperationEnds.sameControl {i : Instr} {s t : State} {r : CopyRegs} (h : OperationEnds i s r (.next t)) :
    sameControl s t := by
  rcases h with hm | ⟨_, hstage⟩
  · obtain ⟨m, rfl⟩ := hm.next_eq_raise
    exact sameControl_raise s _
  · exact hstage.sameControl

theorem exec_sameControl {i : Instr} {s t : State} (h : exec i s = .next t) : sameControl s t := by
  rcases exec_cases i s with ⟨c, _, he⟩ | ⟨_, he⟩ | ⟨r, _, he⟩ <;> rw [h] at he
  · cases he; exact sameControl_raise s _
  · cases he; exact sameControl_complete s
  · exact he.sameControl

/-! ### Steps and runs -/

/-- A step has a next state exactly where no fault is recorded and the instruction fetched has it (R135, I21). -/
theorem step_eq_next_iff {s t : State} :
    step s = .next t ↔ s.fault = none ∧ ∃ i, s.nextInstr = .ok i ∧ exec i s = .next t := by
  unfold step
  cases hf : s.fault with
  | some f => simp
  | none => cases hi : s.nextInstr <;> simp

theorem step_sameControl {s t : State} (h : step s = .next t) : sameControl s t := by
  obtain ⟨_, i, _, hexec⟩ := step_eq_next_iff.mp h
  exact exec_sameControl hexec

theorem run_succ_eq_next_iff {k : Nat} {s t : State} :
    core.run (k + 1) s = .next t ↔ ∃ u, step s = .next u ∧ core.run k u = .next t := by
  cases h : step s <;> simp [Host.Core.run, core, h]

/-- A reflexive and transitive relation that every step keeps relates the two ends of every run. -/
theorem run_related {R : State → State → Prop} (hrefl : ∀ s, R s s) (htrans : ∀ {s t u}, R s t → R t u → R s u)
    (hstep : ∀ {s t}, step s = .next t → R s t) {k : Nat} {s t : State} (h : core.run k s = .next t) : R s t := by
  induction k generalizing s with
  | zero => cases h; exact hrefl _
  | succ k ih =>
    obtain ⟨u, hsu, hut⟩ := run_succ_eq_next_iff.mp h
    exact htrans (hstep hsu) (ih hut)

/-- Settles O53: `sameControl` is reflexive and transitive, and every step keeps it. -/
theorem launchValuesHoldThroughTheRun : Obligations.LaunchValuesHoldThroughTheRun :=
  fun _ _ _ h => run_related sameControl_refl sameControl.trans step_sameControl h

end Sys2Proof.Machine
end

section
/-! PROOFS. Fetch and step: where the text at `pc` gives an instruction, and where the fetch is refused (R22, R60,
R160); what no step writes; and the state at reset. -/

namespace Sys2Proof.Machine

/-! ### The program counter as a number -/

theorem lowTwoBits_eq_zero_iff (pc : Word) : pc.extractLsb' 0 2 = 0#2 ↔ pc.toNat % 4 = 0 := by
  simp [← BitVec.toNat_inj]

theorem eq_topOfAddressSpace_iff (pc : Word) : pc = 0xFFFFFFFFFFFFFFFC#64 ↔ pc.toNat = 2 ^ 64 - 4 := by
  simp [← BitVec.toNat_inj]

/-- The four bytes of an aligned word do not wrap. -/
theorem byteAddr_of_aligned {pc : Word} (ha : pc.toNat % 4 = 0) {i : Nat} (hi : i < 4) :
    byteAddr pc i = pc.toNat + i := by
  have := pc.isLt
  rw [byteAddr_toNat, Nat.mod_eq_of_lt (by omega)]

/-! ### The fetch -/

theorem State.fetch_of_misaligned {s : State} (h : s.pc.toNat % 4 ≠ 0) : s.fetch = .error .pcMisaligned :=
  if_pos (mt (lowTwoBits_eq_zero_iff s.pc).mp h)

theorem State.fetch_of_top {s : State} (h : s.pc.toNat = 2 ^ 64 - 4) : s.fetch = .error .pcAtTopOfAddressSpace := by
  have hpc : s.pc = 0xFFFFFFFFFFFFFFFC#64 := (eq_topOfAddressSpace_iff s.pc).mpr h
  simp [State.fetch, hpc]

section Aligned

variable {s : State} (ha : s.pc.toNat % 4 = 0) (ht : s.pc.toNat ≠ 2 ^ 64 - 4)
include ha ht

theorem State.fetch_of_text {b0 b1 b2 b3 : Byte} (h0 : s.text.find s.pc.toNat = some b0)
    (h1 : s.text.find (s.pc.toNat + 1) = some b1) (h2 : s.text.find (s.pc.toNat + 2) = some b2)
    (h3 : s.text.find (s.pc.toNat + 3) = some b3) : s.fetch = .ok [b0, b1, b2, b3] := by
  have hpc : s.pc ≠ 0xFFFFFFFFFFFFFFFC#64 := mt (eq_topOfAddressSpace_iff s.pc).mp ht
  simp [State.fetch, lowTwoBits_eq_zero_iff, byteAddr_of_aligned, ha, hpc, h0, h1, h2, h3]

theorem State.fetch_of_missing_text {i : Nat} (hi : i < 4) (hn : s.text.find (s.pc.toNat + i) = none) :
    s.fetch = .error .noProgramText := by
  rw [← byteAddr_of_aligned ha hi] at hn
  rw [State.fetch, if_neg (not_not.mpr ((lowTwoBits_eq_zero_iff s.pc).mpr ha)),
    if_neg (mt (eq_topOfAddressSpace_iff s.pc).mp ht)]
  split
  next h0 h1 h2 h3 =>
    interval_cases i <;> simp only [h0, h1, h2, h3, reduceCtorEq] at hn
  next => rfl

end Aligned

/-! ### The step -/

theorem step_of_fetch_error {s : State} {r : Refusal} (hf : s.fault = none) (h : s.fetch = .error r) :
    step s = .refused r := by
  simp [step, State.nextInstr, hf, h]

theorem step_of_fetch_word {s : State} {b0 b1 b2 b3 : Byte} {i : Instr} (hf : s.fault = none)
    (h : s.fetch = .ok [b0, b1, b2, b3]) (hd : decodeWord (wordOfBytes b0 b1 b2 b3) = .ok i) : step s = exec i s := by
  simp [step, State.nextInstr, hf, h, decode, hd, Except.map]

/-- Settles O5: the four bytes are what the fetch answers, and the word they make is what it decodes. -/
theorem stepRunsDecodedInstruction : Obligations.StepRunsDecodedInstruction :=
  fun _ _ _ _ _ _ hf ha ht h0 h1 h2 h3 hd => step_of_fetch_word hf (State.fetch_of_text ha ht h0 h1 h2 h3) hd

/-- Settles O6: each refusal is the fetch's, and the step hands it on. -/
theorem fetchRefusals : Obligations.FetchRefusals := fun _ hf =>
  ⟨fun h => step_of_fetch_error hf (State.fetch_of_misaligned h),
    fun h => step_of_fetch_error hf (State.fetch_of_top h),
    fun ha ht ⟨_, hi, hn⟩ => step_of_fetch_error hf (State.fetch_of_missing_text ha ht hi hn)⟩

/-! ### What no step writes, and reset -/

/-- Settles O40: every end of an instruction keeps `sameControl`, and a step that goes on is an instruction's. -/
theorem noStepWritesControlState : Obligations.NoStepWritesControlState := fun _ _ h => step_sameControl h

/-- Settles O42: memory and text are empty, `pc` is 0 and no fault is recorded. -/
theorem resetMeetsInvariant : Obligations.ResetMeetsInvariant := by
  unfold Obligations.ResetMeetsInvariant
  decide

end Sys2Proof.Machine
end

section
/-! PROOFS. PSTATE.UAO (R25): where the access descriptors depend on it, and that with options 0000 they do not (R82),
so that every operation of the machine goes the same way with another value of it. -/

namespace Sys2Proof.Machine

/-! ### The state with another value of UAO -/

/-- `s` with `b` as its PSTATE.UAO. -/
def State.withUao (b : Bool) (s : State) : State := { s with uao := b }

section WithUao

variable (b : Bool) (s : State)

@[simp] theorem State.withUao_readX (j : RegNum) : (s.withUao b).readX j = s.readX j := rfl
@[simp] theorem State.withUao_el : (s.withUao b).el = s.el := rfl
@[simp] theorem State.withUao_mem : (s.withUao b).mem = s.mem := rfl
@[simp] theorem State.withUao_text : (s.withUao b).text = s.text := rfl
@[simp] theorem State.withUao_now : (s.withUao b).now = s.now := rfl
@[simp] theorem State.withUao_blockSize (i left : Nat) : (s.withUao b).blockSize i left = s.blockSize i left := rfl
@[simp] theorem State.withUao_post (r : CopyRegs) : (s.withUao b).post r = s.post r := rfl
@[simp] theorem State.withUao_memFault (addr : Word) (n : Nat) (acc : AccDesc) :
    (s.withUao b).memFault addr n acc = s.memFault addr n acc := rfl
@[simp] theorem optionMismatch_withUao (r : CopyRegs) : optionMismatch r (s.withUao b) = optionMismatch r s := rfl
@[simp] theorem checks_withUao (sz : BitVec 2) (rs rn rd : BitVec 5) :
    checks (s.withUao b) sz rs rn rd = checks s sz rs rn rd := rfl

@[simp] theorem State.withUao_complete : (s.withUao b).complete = s.complete.withUao b := rfl
@[simp] theorem State.withUao_raise (f : Fault) : (s.withUao b).raise f = (s.raise f).withUao b := rfl
@[simp] theorem State.withUao_access : (s.withUao b).access = s.access.withUao b := rfl
@[simp] theorem State.withUao_setMem (m : Memory) : (s.withUao b).setMem m = (s.setMem m).withUao b := rfl
@[simp] theorem State.withUao_setFlags (f : Flags) : (s.withUao b).setFlags f = (s.setFlags f).withUao b := rfl
@[simp] theorem writeBackA_withUao (wb : Option CopyRegs) (size : Word) :
    writeBackA wb size (s.withUao b) = (writeBackA wb size s).withUao b := by cases wb <;> rfl
@[simp] theorem writeBackB_withUao (wb : Option CopyRegs) (to_ from_ size : Word) :
    writeBackB wb to_ from_ size (s.withUao b) = (writeBackB wb to_ from_ size s).withUao b := by cases wb <;> rfl

end WithUao

/-! ### Where the descriptors depend on UAO -/

/-- Without the extension the value of UAO plays no part in the privilege (R25). -/
theorem State.withUao_privileged {s : State} (h : s.cfg.haveUao = false) (b : Bool) (options : BitVec 4) (i : Fin 4) :
    (s.withUao b).privileged options i = s.privileged options i := by
  simp [State.privileged, State.withUao, h]

/-- UAO 1 overrides the computation of the level (R25). -/
theorem State.privileged_of_uao {s : State} (h : s.cfg.haveUao = true) (hu : s.uao = true) (options : BitVec 4)
    (i : Fin 4) : s.privileged options i = (s.el != .el0) := by
  simp [State.privileged, h, hu]

/-- With options 0000 every way to the privilege gives the same answer (R82). -/
@[simp] theorem State.privileged_zero (s : State) (i : Fin 4) : s.privileged 0#4 i = (s.el != .el0) := by
  unfold State.privileged
  split
  · rfl
  · cases hel : s.el <;> simp

@[simp] theorem State.readDesc_withUao_zero (b : Bool) (s : State) : (s.withUao b).readDesc 0#4 = s.readDesc 0#4 := by
  simp [State.readDesc]

@[simp] theorem State.writeDesc_withUao_zero (b : Bool) (s : State) :
    (s.withUao b).writeDesc 0#4 = s.writeDesc 0#4 := by
  simp [State.writeDesc]

/-! ### Ends with another value of UAO -/

/-- The same end of a part of an instruction, with `b` as the UAO of its state. -/
def outcomeWithUao (b : Bool) : Host.Outcome State Fault Refusal → Host.Outcome State Fault Refusal
  | .next s => .next (s.withUao b)
  | .fault f => .fault f
  | .refused r => .refused r

/-- The same way on, with `b` as the UAO of its state. -/
def Flow.withUao {α : Type} (b : Bool) : Flow α → Flow α
  | .done s a => .done (s.withUao b) a
  | .ended o => .ended (outcomeWithUao b o)

section Operations

variable (b : Bool)

theorem memRead_withUao (s : State) (addr : Word) (n : Nat) (acc : AccDesc) :
    memRead (s.withUao b) addr n acc = (memRead s addr n acc).withUao b := by
  cases h : s.memFault addr n acc <;> simp [memRead, h, Flow.withUao, outcomeWithUao]

theorem memWrite_withUao (s : State) (addr : Word) (acc : AccDesc) (v : List Byte) :
    memWrite (s.withUao b) addr acc v = (memWrite s addr acc v).withUao b := by
  cases h : s.memFault addr v.length acc with
  | some f => simp [memWrite, h, Flow.withUao, outcomeWithUao]
  | none => cases ht : s.text.meets addr v.length <;> simp [memWrite, h, ht, Flow.withUao, outcomeWithUao]

theorem moveBlock_withUao (s : State) (src dst : Word) (n : Nat) (racc wacc : AccDesc) :
    moveBlock (s.withUao b) src dst n racc wacc = (moveBlock s src dst n racc wacc).withUao b := by
  rw [moveBlock, moveBlock, memRead_withUao]
  cases memRead s src n racc with
  | ended o => rfl
  | done s1 data => exact memWrite_withUao b s1 dst wacc data

theorem copyLoopA_withUao (racc wacc : AccDesc) (wb : Option CopyRegs) (to_ from_ : Word) (fuel i : Nat)
    (size stg : Word) (s : State) :
    copyLoopA racc wacc wb to_ from_ fuel i size stg (s.withUao b) =
      (copyLoopA racc wacc wb to_ from_ fuel i size stg s).withUao b := by
  induction fuel generalizing i size stg s with
  | zero => rfl
  | succ fuel ih =>
    by_cases h0 : stg = 0#64
    · simp [copyLoopA, h0, Flow.withUao]
    simp only [copyLoopA, if_neg h0, State.withUao_blockSize, moveBlock_withUao]
    cases moveBlock s (from_ + size) (to_ + size) (s.blockSize i (magnitude true stg)) racc wacc with
    | ended o => rfl
    | done s1 _ => simp [Flow.withUao, ih]

theorem copyLoopB_withUao (racc wacc : AccDesc) (wb : Option CopyRegs) (fuel i : Nat) (w : Work) (stg : Word)
    (s : State) :
    copyLoopB racc wacc wb fuel i w stg (s.withUao b) = (copyLoopB racc wacc wb fuel i w stg s).withUao b := by
  induction fuel generalizing i w stg s with
  | zero => rfl
  | succ fuel ih =>
    by_cases h0 : stg = 0#64
    · simp [copyLoopB, h0, Flow.withUao]
    simp only [copyLoopB, if_neg h0, State.withUao_blockSize, moveBlock_withUao]
    cases moveBlock s w.from_ w.to_ (s.blockSize i (magnitude false stg)) racc wacc with
    | ended o => rfl
    | done s1 _ => simp [Flow.withUao, ih]

theorem copyStage_withUao (wb : Option CopyRegs) (optA : Bool) (w : Work) (stg : Word) (s : State) :
    copyStage 0#4 wb optA w stg (s.withUao b) = (copyStage 0#4 wb optA w stg s).withUao b := by
  cases optA with
  | false => simp [copyStage, copyLoopB_withUao]
  | true =>
    simp only [copyStage, if_true, copyLoopA_withUao, State.readDesc_withUao_zero, State.writeDesc_withUao_zero]
    cases copyLoopA (s.readDesc 0#4) (s.writeDesc 0#4) wb w.to_ w.from_ (magnitude true stg) 0 w.size stg s <;> rfl

theorem prologue_withUao (r : CopyRegs) (s : State) :
    prologue 0#4 r (s.withUao b) = outcomeWithUao b (prologue 0#4 r s) := by
  simp only [prologue, State.withUao_now, State.withUao_readX, copyStage_withUao]
  cases copyStage .. with
  | ended o => rfl
  | done s1 w1 => simp [Flow.withUao, outcomeWithUao]

theorem copyAndComplete_withUao (r : CopyRegs) (stg : Word) (s : State) :
    copyAndComplete 0#4 r stg (s.withUao b) = outcomeWithUao b (copyAndComplete 0#4 r stg s) := by
  simp only [copyAndComplete, State.withUao_now, State.withUao_readX, copyStage_withUao]
  cases copyStage .. <;> rfl

theorem raiseMismatch_withUao (options : BitVec 4) (r : CopyRegs) (wrongOption fromEpilogue : Bool) (s : State) :
    raiseMismatch options r wrongOption fromEpilogue (s.withUao b) =
      outcomeWithUao b (raiseMismatch options r wrongOption fromEpilogue s) := rfl

theorem mainStage_withUao (r : CopyRegs) (s : State) :
    mainStage 0#4 r (s.withUao b) = outcomeWithUao b (mainStage 0#4 r s) := by
  simp only [mainStage, optionMismatch_withUao, State.withUao_now, State.withUao_readX, State.withUao_post,
    raiseMismatch_withUao, copyAndComplete_withUao, apply_ite (outcomeWithUao b)]

theorem epilogue_withUao (r : CopyRegs) (s : State) :
    epilogue 0#4 r (s.withUao b) = outcomeWithUao b (epilogue 0#4 r s) := by
  simp only [epilogue, optionMismatch_withUao, State.withUao_now, State.withUao_readX, State.withUao_post,
    raiseMismatch_withUao, copyAndComplete_withUao, apply_ite (outcomeWithUao b)]

/-- The checks look at no UAO, so an Operation that goes the same way makes the instruction go the same way. -/
theorem afterChecks_withUao {operation operation' : CopyRegs → Host.Outcome State Fault Refusal}
    (h : ∀ r, operation' r = outcomeWithUao b (operation r)) (sz : BitVec 2) (rs rn rd : BitVec 5) (s : State) :
    afterChecks sz rs rn rd (s.withUao b) operation' = outcomeWithUao b (afterChecks sz rs rn rd s operation) := by
  rw [afterChecks, afterChecks, checks_withUao]
  cases checks s sz rs rn rd with
  | undef c => rfl
  | nop => rfl
  | run r => exact h r

/-- An instruction in scope ends the same way whatever UAO is (R25, R82). -/
theorem exec_withUao {i : Instr} (hi : i.wf = true) (s : State) :
    exec i (s.withUao b) = outcomeWithUao b (exec i s) := by
  cases i <;> obtain rfl := eq_of_beq hi
  case cpyfp sz rs rn rd => exact afterChecks_withUao b (prologue_withUao b · s) sz rs rn rd s
  case cpyfm sz rs rn rd => exact afterChecks_withUao b (mainStage_withUao b · s) sz rs rn rd s
  case cpyfe sz rs rn rd => exact afterChecks_withUao b (epilogue_withUao b · s) sz rs rn rd s

end Operations

theorem exec_uao {i : Instr} {s t : State} (h : exec i s = .next t) : t.uao = s.uao := by
  obtain ⟨_, huao, _⟩ := exec_sameControl h
  exact huao

/-- Settles O49: UAO enters through the privilege alone, which it does not change with options 0000. -/
theorem uaoRule : Obligations.UaoRule := by
  refine ⟨fun s options b h => ?_, fun s options h hu => ?_, fun _ _ _ => exec_uao, fun i s b hi => ?_⟩
  · rw [← State.withUao]
    simp [State.readDesc, State.writeDesc, State.withUao_privileged h]
  · simp [State.readDesc, State.writeDesc, State.privileged_of_uao h hu]
  · rw [← State.withUao, exec_withUao b hi]
    cases exec i s <;> rfl

end Sys2Proof.Machine
end

section
/-! PROOFS. The two primitives of memory and the block made of them: what each answers, and which bytes it changes
(R41, R42, R43, R47, R50, R54). -/

namespace Sys2Proof.Machine

/-! ### Bytes of the state -/

theorem State.byte_eq_of_mem_eq {s t : State} (h : t.mem = s.mem) (a : Word) : t.byte a = s.byte a := by
  rw [State.byte, State.byte, h]

/-- Byte `i` of an access lies at the address that the model computes for it. -/
theorem State.byte_add (s : State) (addr : Word) (i : Nat) :
    s.byte (addr + BitVec.ofNat 64 i) = s.mem.read (byteAddr addr i) := rfl

theorem outside_iff {addr : Word} {k : Nat} {a : Word} :
    outside addr k a ↔ ∀ i, i < k → a.toNat ≠ byteAddr addr i := by
  simp [outside, byteAddr, BitVec.toNat_inj, -BitVec.toNat_add]

theorem State.clearOfText_iff {s : State} {addr : Word} {k : Nat} :
    s.clearOfText addr k ↔ s.text.meets addr k = false := Memory.meets_eq_false.symm

/-! ### The primitives -/

theorem memRead_of_fault {s : State} {addr : Word} {n : Nat} {acc : AccDesc} {f : FaultInfo}
    (h : s.memFault addr n acc = some f) :
    memRead s addr n acc = .ended (.next (s.raise (.memoryFault f addr n acc))) := by
  simp [memRead, h]

theorem memRead_of_admitted {s : State} {addr : Word} {n : Nat} {acc : AccDesc} (h : s.memFault addr n acc = none) :
    memRead s addr n acc = .done s.access (s.mem.readBlock addr n) := by
  simp [memRead, h]

section Write

variable {s : State} {addr : Word} {acc : AccDesc} {v : List Byte}

theorem memWrite_of_fault {f : FaultInfo} (h : s.memFault addr v.length acc = some f) :
    memWrite s addr acc v = .ended (.next (s.raise (.memoryFault f addr v.length acc))) := by
  simp [memWrite, h]

theorem memWrite_of_meets (h : s.memFault addr v.length acc = none) (ht : ¬ s.clearOfText addr v.length) :
    memWrite s addr acc v = .ended (.refused .destinationInProgramText) := by
  rw [State.clearOfText_iff, Bool.not_eq_false] at ht
  simp [memWrite, h, ht]

theorem memWrite_of_clear (h : s.memFault addr v.length acc = none) (ht : s.clearOfText addr v.length) :
    memWrite s addr acc v = .done (s.setMem (s.mem.writeBlock addr v)).access () := by
  simp [memWrite, h, State.clearOfText_iff.mp ht]

/-- A write that is performed has met no text. -/
theorem memWrite_eq_done {t : State} (h : memWrite s addr acc v = .done t ()) :
    s.clearOfText addr v.length ∧ t = (s.setMem (s.mem.writeBlock addr v)).access := by
  cases hf : s.memFault addr v.length acc with
  | some f => simp [memWrite_of_fault hf] at h
  | none =>
    by_cases ht : s.clearOfText addr v.length
    · rw [memWrite_of_clear hf ht] at h
      cases h
      exact ⟨ht, rfl⟩
    · simp [memWrite_of_meets hf ht] at h

end Write

/-! ### One block -/

section Block

variable {s : State} {src dst : Word} {n : Nat} {racc wacc : AccDesc} {f : FaultInfo}

theorem moveBlock_of_read_faults (h : s.memFault src n racc = some f) :
    moveBlock s src dst n racc wacc = .ended (.next (s.raise (.memoryFault f src n racc))) := by
  rw [moveBlock, memRead_of_fault h]

theorem moveBlock_of_write_faults (hr : s.memFault src n racc = none) (hw : s.access.memFault dst n wacc = some f) :
    moveBlock s src dst n racc wacc = .ended (.next (s.access.raise (.memoryFault f dst n wacc))) := by
  rw [moveBlock, memRead_of_admitted hr]
  simpa using memWrite_of_fault (v := s.mem.readBlock src n) (by simpa using hw)

theorem moveBlock_eq_done {t : State} (h : moveBlock s src dst n racc wacc = .done t ()) :
    t = s.withBlocks src dst [n] := by
  obtain hd | ⟨o, he, _⟩ := moveBlock_cases s src dst n racc wacc
  · rw [hd] at h
    cases h
    rfl
  · rw [he] at h
    cases h

end Block

/-- A block that is read whole before it is written arrives as it was, also where it overlaps itself (R43, R50). -/
theorem State.withBlocks_singleton_byte (s : State) (src dst : Word) {n : Nat} (hn : n ≤ 2 ^ 64) {i : Nat} (hi : i < n) :
    (s.withBlocks src dst [n]).byte (dst + BitVec.ofNat 64 i) = s.byte (src + BitVec.ofNat 64 i) := by
  rw [State.byte_add, State.byte_add, State.withBlocks_mem, moveBlocks, moveBlocks,
    Memory.read_writeBlock_inside (by simpa using hn) (by simpa using hi), Memory.getElem_readBlock]

theorem State.withBlocks_byte_outside (s : State) {src dst : Word} {bs : List Nat} {a : Word}
    (h : outside dst bs.sum a) : (s.withBlocks src dst bs).byte a = s.byte a :=
  moveBlocks_outside (outside_iff.mp h)

/-- Settles O15: the three cases of a write; the memory is the old one with the block written. -/
theorem writeChangesExactlyItsBytes : Obligations.WriteChangesExactlyItsBytes :=
  fun s addr _ v hv => ⟨fun _ => memWrite_of_fault, fun h => ⟨memWrite_of_meets h, fun ht =>
    ⟨s.mem.writeBlock addr v, memWrite_of_clear h ht, fun _ hi => Memory.read_writeBlock_inside hv hi,
      fun _ ha => Memory.read_writeBlock_outside (outside_iff.mp ha)⟩⟩⟩

/-- Settles O16: the two cases of a read. -/
theorem readReturnsTheBytes : Obligations.ReadReturnsTheBytes :=
  fun _ _ _ _ => ⟨fun _ => memRead_of_fault, fun h =>
    ⟨_, memRead_of_admitted h, Memory.length_readBlock .., Memory.getElem_readBlock _ _ _⟩⟩

/-- Settles O17: a block that was moved is read whole before it is written. -/
theorem oneBlockCopiesItsBytes : Obligations.OneBlockCopiesItsBytes := fun s t src dst n _ _ hn h => by
  obtain rfl := moveBlock_eq_done h
  exact ⟨fun _ hi => s.withBlocks_singleton_byte src dst hn hi,
    fun _ ha => s.withBlocks_byte_outside (by simpa using ha)⟩

end Sys2Proof.Machine
end

section
/-! PROOFS. The platform's answers: where declared ranges admit an access, and how an answer for one access stands
beside them (R47, R160 (L5), R94 (v)). -/

namespace Sys2Proof.Machine

/-! ### Declared ranges -/

theorem Region.covers_iff {g : Region} {addr : Word} {n : Nat} :
    g.covers addr n = true ↔ ∀ i, i < n → g.base ≤ byteAddr addr i ∧ byteAddr addr i < g.base + g.size := by
  simp [Region.covers]

theorem Region.permits_iff {g : Region} {acc : AccDesc} :
    g.permits acc = true ↔ (acc.op = .load → (if acc.privileged then g.privRead else g.unprivRead) = true) ∧
      (acc.op = .store → (if acc.privileged then g.privWrite else g.unprivWrite) = true) := by
  obtain ⟨op, privileged, _, _⟩ := acc
  cases op <;> cases privileged <;> simp [Region.permits]

theorem Platform.memFault_of_no_answers {p : Platform} (h : p.answers = []) (m : Memory) (performed : Nat) (addr : Word)
    (n : Nat) (acc : AccDesc) :
    p.memFault m performed addr n acc = if p.admits addr n acc then none else some .notDeclared := by
  simp [Platform.memFault, h]

/-- The conservative memory admits an access where one range holds it and gives the right (R47). -/
theorem Platform.memFault_eq_none_iff {p : Platform} (h : p.answers = []) {m : Memory} {performed : Nat} {addr : Word}
    {n : Nat} {acc : AccDesc} :
    p.memFault m performed addr n acc = none ↔ ∃ g ∈ p.regions, g.permits acc = true ∧ g.covers addr n = true := by
  simp [Platform.memFault_of_no_answers h, Platform.admits]

/-- Where no declared range gives the right, no access is admitted. -/
theorem Platform.memFault_of_no_right {p : Platform} (h : p.answers = []) {acc : AccDesc}
    (hg : ∀ g ∈ p.regions, g.permits acc = false) (m : Memory) (performed : Nat) (addr : Word) (n : Nat) :
    p.memFault m performed addr n acc = some .notDeclared := by
  have hadmits : p.admits addr n acc = false := by
    simp +contextual [Platform.admits, hg]
  simp [Platform.memFault_of_no_answers h, hadmits]

/-- Settles O18: the range that the platform finds is the range of the statement. -/
theorem accessAdmittedInsideDeclaredRanges : Obligations.AccessAdmittedInsideDeclaredRanges := by
  intro p m performed addr n acc hp
  rw [Platform.memFault_eq_none_iff hp]
  simp only [Region.permits_iff, Region.covers_iff, byteAddr]
  exact exists_congr fun g => and_congr_right fun _ => and_comm

/-! ### An answer of the platform's own -/

/-- The platform `p` with one more answer, looked at first. -/
def Platform.withAnswer (p : Platform) (e : PlatformAnswer) : Platform := { p with answers := e :: p.answers }

theorem Platform.memFault_withAnswer_of_applies {p : Platform} {e : PlatformAnswer} {m : Memory} {performed : Nat}
    {addr : Word} {n : Nat} {acc : AccDesc} (h : e.applies m performed addr n acc = true) :
    (p.withAnswer e).memFault m performed addr n acc = e.answer := by
  simp [Platform.memFault, Platform.withAnswer, h]

theorem Platform.memFault_withAnswer_of_not_applies {p : Platform} {e : PlatformAnswer} {m : Memory} {performed : Nat}
    {addr : Word} {n : Nat} {acc : AccDesc} (h : e.applies m performed addr n acc = false) :
    (p.withAnswer e).memFault m performed addr n acc = p.memFault m performed addr n acc := by
  simp [Platform.memFault, Platform.withAnswer, Platform.admits, h]

/-- Settles O51: the platform that answers as told after `performed` accesses, and as `p` after any other number. -/
theorem platformAnswerMayVaryWithMemorySystem : Obligations.PlatformAnswerMayVaryWithMemorySystem :=
  fun p _ performed addr n acc a =>
    ⟨p.withAnswer ⟨some performed, [], addr, n, acc, a⟩,
      Platform.memFault_withAnswer_of_applies (by simp [PlatformAnswer.applies]),
      fun _ _ _ _ _ hne => Platform.memFault_withAnswer_of_not_applies
        (by simp [PlatformAnswer.applies, Ne.symm hne])⟩

/-! ### A copy inside declared ranges -/

/-- A range that holds an area and gives the right admits every access inside the area, in every state of the memory
system that has the platform. -/
theorem State.memFault_eq_none_of_region {t : State} {g : Region} {acc : AccDesc} (ha : t.platform.answers = [])
    (hg : g ∈ t.platform.regions) (hp : g.permits acc = true) {addr : Word} {k : Nat} (hk : g.covers addr k = true)
    {l n : Nat} (hl : l + n ≤ k) : t.memFault (addr + BitVec.ofNat 64 l) n acc = none := by
  refine (Platform.memFault_eq_none_iff ha).mpr ⟨g, hg, hp, Region.covers_iff.mpr fun i hi => ?_⟩
  rw [byteAddr_add]
  exact Region.covers_iff.mp hk (l + i) (by omega)

/-- Settles O52: blocks moved before leave the platform, and the next block lies in the same two ranges. -/
theorem declaredRangesAdmitTheCopy : Obligations.DeclaredRangesAdmitTheCopy := by
  intro s _ src dst k g h ha hg hh hgp hhp hgc hhc hclear
  have hsrc : g.covers src k = true := Region.covers_iff.mpr hgc
  have hdst : h.covers dst k = true := Region.covers_iff.mpr hhc
  refine ⟨fun bs _ _ _ _ hk => ⟨?_, ?_⟩, hclear⟩
  · exact State.memFault_eq_none_of_region (t := s.withBlocks src dst bs) ha hg hgp hsrc hk
  · exact State.memFault_eq_none_of_region (t := (s.withBlocks src dst bs).access) ha hh hhp hdst hk

end Sys2Proof.Machine
end

section
/-! PROOFS. The first block of an instruction: an access of it that the platform faults ends the instruction in that
MemoryFault (R47, R90, R133), and at EL0 without an unprivileged right the first read is such an access (R46, R82). -/

namespace Sys2Proof.Machine

/-! ### Where the first block of CPYFP lies -/

@[simp] theorem prologueWork_source (optA : Bool) (to_ from_ size : Word) :
    (prologueWork optA to_ from_ size).source optA = from_ := by
  cases optA <;> simp [prologueWork, Work.source]

@[simp] theorem prologueWork_dest (optA : Bool) (to_ from_ size : Word) :
    (prologueWork optA to_ from_ size).dest optA = to_ := by
  cases optA <;> simp [prologueWork, Work.dest]

/-! ### A first block that ends the instruction -/

section FirstBlock

variable {options : BitVec 4} {r : CopyRegs} {s : State} {o : Host.Outcome State Fault Refusal}

theorem prologue_of_firstBlock (h1 : 1 ≤ prologueBytes s r)
    (h : moveBlock s (s.readX r.s) (s.readX r.d) (s.blockSize 0 (prologueBytes s r)) (s.readDesc options)
      (s.writeDesc options) = .ended o) : prologue options r s = o := by
  simp only [prologue]
  rw [copyStage_of_blockStops h1 (by simpa [prologueBytes] using h)]

/-- The first block of the copying part of CPYFM and CPYFE. -/
theorem copyAndComplete_of_firstBlock {stg : Word} (h1 : 1 ≤ magnitude s.now.optionA stg)
    (h : moveBlock s (nextSource s r) (nextDest s r) (s.blockSize 0 (magnitude s.now.optionA stg))
      (s.readDesc options) (s.writeDesc options) = .ended o) : copyAndComplete options r stg s = o := by
  rw [copyAndComplete, copyStage_of_blockStops (w := ⟨s.readX r.d, s.readX r.s, s.readX r.n⟩) h1 h]

theorem mainStage_of_firstBlock (hm : optionMismatch r s = false) (hrej : ¬ mainRejects s r)
    (h1 : 1 ≤ remaining s r - leftForEpilogue s r)
    (h : moveBlock s (nextSource s r) (nextDest s r) (s.blockSize 0 (remaining s r - leftForEpilogue s r))
      (s.readDesc options) (s.writeDesc options) = .ended o) : mainStage options r s = o := by
  have hill : illformed s.now.optionA s.now.illformedM (s.readX r.n) = false := Bool.not_eq_true _ ▸ hrej
  obtain ⟨_, hmag⟩ := leftForEpilogue_le (illformed_eq_false.mp hill).2
  rw [← hmag] at h1 h
  simp [mainStage, hm, hill, copyAndComplete_of_firstBlock h1 h]

theorem epilogue_of_firstBlock (hm : optionMismatch r s = false) (hrej : ¬ epilogueRejects s r)
    (h1 : 1 ≤ remaining s r)
    (h : moveBlock s (nextSource s r) (nextDest s r) (s.blockSize 0 (remaining s r)) (s.readDesc options)
      (s.writeDesc options) = .ended o) : epilogue options r s = o := by
  obtain ⟨hpost, hill⟩ : s.readX r.n = s.post r ∧ illformed s.now.optionA s.now.illformedE (s.readX r.n) = false := by
    simpa [epilogueRejects] using hrej
  rw [epilogue, ← hpost]
  simp [hm, hill, copyAndComplete_of_firstBlock h1 h]

/-- An instruction that comes to copy something ends as its first block ends it. -/
theorem exec_of_firstBlock {i : Instr} (hc : checksOf i s = .run r) (ht : testsPass i s r) (h1 : 1 ≤ stageBytes i s r)
    (h : moveBlock s (stageSource i s r) (stageDest i s r) (s.blockSize 0 (stageBytes i s r))
      (s.readDesc (optionsOf i)) (s.writeDesc (optionsOf i)) = .ended o) : exec i s = o := by
  cases i <;> simp only [checksOf] at hc
  case cpyfp =>
    simp only [exec, execCpyfp, afterChecks, hc]
    exact prologue_of_firstBlock h1 h
  case cpyfm =>
    simp only [exec, execCpyfm, afterChecks, hc]
    obtain ⟨hm, hrej⟩ := ht
    exact mainStage_of_firstBlock hm hrej h1 h
  case cpyfe =>
    simp only [exec, execCpyfe, afterChecks, hc]
    obtain ⟨hm, hrej⟩ := ht
    exact epilogue_of_firstBlock hm hrej h1 h

end FirstBlock

/-- Settles O50: the access that faults ends the first block, and the first block ends the instruction. -/
theorem firstFailingAccessRaisesMemoryFault : Obligations.FirstFailingAccessRaisesMemoryFault := by
  rintro i s r _ f hc ht h1 rfl
  exact ⟨fun hr => exec_of_firstBlock hc ht h1 (moveBlock_of_read_faults hr),
    fun hr hw => exec_of_firstBlock hc ht h1 (moveBlock_of_write_faults hr hw)⟩

/-- Settles O14: with options 0000 the first read at EL0 is unprivileged, and no range gives it the right. -/
theorem unprivilegedReadWithoutRightFaults : Obligations.UnprivilegedReadWithoutRightFaults := by
  intro i s r ho hc ht h1 hel ha hg
  have hdesc : s.readDesc (optionsOf i) = ⟨.load, false, false, true⟩ := by
    simp [ho, State.readDesc, hel]
  have hfault : s.memFault (stageSource i s r) (s.blockSize 0 (stageBytes i s r)) ⟨.load, false, false, true⟩ =
      some .notDeclared :=
    Platform.memFault_of_no_right ha (acc := ⟨.load, false, false, true⟩) hg ..
  rw [← hdesc] at hfault ⊢
  exact exec_of_firstBlock hc ht h1 (moveBlock_of_read_faults hfault)

end Sys2Proof.Machine
end

section
/-! PROOFS. The bytes of memory after an instruction, however it ends: some blocks of its stage are moved. Where no
overlap spoils them they arrive as they were (R56 (a)), and a copy onto itself changes nothing (R56 (c)). -/

namespace Sys2Proof.Machine

/-! ### A copy onto itself -/

/-- Writing to each address the byte that it holds changes no byte, also where the block wraps onto itself. -/
theorem Memory.read_writeBlock_same {m : Memory} {addr : Word} {v : List Byte}
    (h : ∀ i (hi : i < v.length), v[i] = m.read (byteAddr addr i)) (a : Nat) :
    (m.writeBlock addr v).read a = m.read a := by
  induction v generalizing m addr with
  | nil => rfl
  | cons b rest ih =>
    have hb : b = m.read addr.toNat := (h 0 (by simp)).trans (by rw [byteAddr_zero])
    have hwrite : ∀ c, (m.write addr.toNat b).read c = m.read c := fun c => by
      rw [Memory.read_write]
      split
      next hc => rw [hb, hc]
      next => rfl
    rw [Memory.writeBlock, ih, hwrite]
    intro i hi
    have hnext : byteAddr (addr + 1#64) i = byteAddr addr (i + 1) := by rw [Nat.add_comm, ← byteAddr_add]
    rw [hwrite, hnext]
    exact h (i + 1) (by simpa using hi)

theorem moveBlocks_same (m : Memory) (p : Word) (bs : List Nat) (a : Nat) :
    (moveBlocks m p p bs).read a = m.read a := by
  induction bs generalizing m p with
  | nil => rfl
  | cons b bs ih =>
    rw [moveBlocks, ih, Memory.read_writeBlock_same (fun i hi => Memory.getElem_readBlock m p b i hi)]

/-! ### Memory at the end of an instruction -/

/-- An instruction that passes the checks ends as its Operation ends. -/
theorem exec_operationEnds {i : Instr} {s : State} {r : CopyRegs} (hc : checksOf i s = .run r) :
    OperationEnds i s r (exec i s) := by
  rcases exec_cases i s with ⟨c, h, _⟩ | ⟨h, _⟩ | ⟨r', h, he⟩ <;> rw [hc] at h <;> cases h
  exact he

/-- A block that stops the instruction with a next state leaves memory, and records a fault. -/
theorem BlockStops.next_mem_fault {t u : State} {src dst : Word} {n : Nat} {racc wacc : AccDesc}
    (h : BlockStops t src dst n racc wacc (.next u)) : u.mem = t.mem ∧ u.fault ≠ none := by
  rcases h with ⟨f, _, hu⟩ | ⟨_, f, _, hu⟩ | ⟨_, _, _, hu⟩ <;> cases hu <;> simp

/-- However an Operation ends, memory is as some blocks of its stage leave it; all of them, where no fault is
recorded. -/
theorem OperationEnds.mem {i : Instr} {s t : State} {r : CopyRegs} (h : OperationEnds i s r (.next t)) :
    ∃ bs, t.mem = moveBlocks s.mem (stageSource i s r) (stageDest i s r) bs ∧
      (t.fault = none → bs.sum = stageBytes i s r) := by
  rcases h with hm | ⟨_, bs, _, ⟨hsum, hdone⟩ | ⟨n, _, _, _, hstop⟩⟩
  · obtain ⟨m, rfl⟩ := hm.next_eq_raise
    exact ⟨[], rfl, by simp⟩
  · cases hdone
    exact ⟨bs, stageDone_mem .., fun _ => hsum⟩
  · obtain ⟨hmem, hfault⟩ := hstop.next_mem_fault
    exact ⟨bs, by simpa using hmem, fun hnone => absurd hnone hfault⟩

/-- An instruction that completes where no overlap spoils its bytes copies them, and changes no other (R56 (a)). -/
theorem exec_copies_forward {i : Instr} {s t : State} {r : CopyRegs} (hc : checksOf i s = .run r)
    (hf : t.fault = none) (h : exec i s = .next t)
    (hfwd : copiesForward (stageSource i s r) (stageDest i s r) (stageBytes i s r)) :
    (∀ j, j < stageBytes i s r →
      t.byte (stageDest i s r + BitVec.ofNat 64 j) = s.byte (stageSource i s r + BitVec.ofNat 64 j)) ∧
    ∀ a, outside (stageDest i s r) (stageBytes i s r) a → t.byte a = s.byte a := by
  have hends := exec_operationEnds hc
  rw [h] at hends
  obtain ⟨bs, hmem, hsum⟩ := hends.mem
  rw [← hsum hf] at hfwd ⊢
  refine ⟨fun j hj => ?_, fun a ha => ?_⟩
  · rw [State.byte_add, State.byte_add, hmem, moveBlocks_forward hfwd hj]
  · rw [State.byte, hmem, moveBlocks_outside (outside_iff.mp ha), State.byte]

/-- Settles O44: each of the three, with its own source, destination and number of bytes. -/
theorem stagesCopyForward : Obligations.StagesCopyForward := fun sz op2 rs rn rd _ _ _ hc _ hf =>
  ⟨exec_copies_forward (i := .cpyfp sz op2 rs rn rd) hc hf, exec_copies_forward (i := .cpyfm sz op2 rs rn rd) hc hf,
    exec_copies_forward (i := .cpyfe sz op2 rs rn rd) hc hf⟩

/-- Settles O45: whatever blocks were moved, they were moved onto themselves. -/
theorem copyOntoItselfChangesNoByte : Obligations.CopyOntoItselfChangesNoByte := by
  intro i s t r hc heq h a
  have hends := exec_operationEnds hc
  rw [h] at hends
  obtain ⟨bs, hmem, _⟩ := hends.mem
  rw [State.byte, hmem, heq, moveBlocks_same, State.byte]

end Sys2Proof.Machine
end

section
/-! PROOFS. Predicates of the state that every operation keeps, and so every instruction: one induction over the copy
loops. Bytes of memory under the program text are such (R54, R160 (L3)). -/

namespace Sys2Proof.Machine

/-! ### What every operation keeps, every instruction keeps -/

/-- Every operation that an instruction is made of keeps `P`: the updates of the state, and a write that is
performed. -/
structure KeptByOperations (P : State → Prop) : Prop where
  access : ∀ {s}, P s → P s.access
  raise : ∀ {s} f, P s → P (s.raise f)
  writeX : ∀ {s} i v, P s → P (s.writeX i v)
  setFlags : ∀ {s} f, P s → P (s.setFlags f)
  complete : ∀ {s}, P s → P s.complete
  write : ∀ {s t addr acc v}, memWrite s addr acc v = .done t () → P s → P t

/-- The next state, where there is one, has `P`. -/
def outcomeHas (P : State → Prop) : Host.Outcome State Fault Refusal → Prop
  | .next s => P s
  | .fault _ => True
  | .refused _ => True

/-- The state that a part of an instruction goes on with, or ends the instruction with, has `P`. -/
def Flow.has {α : Type} (P : State → Prop) : Flow α → Prop
  | .done s _ => P s
  | .ended o => outcomeHas P o

section Kept

variable {P : State → Prop} (hP : KeptByOperations P) {s : State} (hs : P s)
include hP hs

theorem KeptByOperations.memRead (addr : Word) (n : Nat) (acc : AccDesc) : (memRead s addr n acc).has P := by
  cases h : s.memFault addr n acc with
  | some f => rw [memRead_of_fault h]; exact hP.raise _ hs
  | none => rw [memRead_of_admitted h]; exact hP.access hs

theorem KeptByOperations.memWrite (addr : Word) (acc : AccDesc) (v : List Byte) : (memWrite s addr acc v).has P := by
  cases h : s.memFault addr v.length acc with
  | some f => rw [memWrite_of_fault h]; exact hP.raise _ hs
  | none =>
    by_cases ht : s.clearOfText addr v.length
    · rw [memWrite_of_clear h ht]; exact hP.write (memWrite_of_clear h ht) hs
    · rw [memWrite_of_meets h ht]; trivial

theorem KeptByOperations.moveBlock (src dst : Word) (n : Nat) (racc wacc : AccDesc) :
    (moveBlock s src dst n racc wacc).has P := by
  have hread := hP.memRead hs src n racc
  rw [Machine.moveBlock]
  cases hr : Machine.memRead s src n racc with
  | ended o => rwa [hr] at hread
  | done s1 data =>
    rw [hr] at hread
    exact hP.memWrite hread dst wacc data

theorem KeptByOperations.writeBackA (wb : Option CopyRegs) (size : Word) : P (writeBackA wb size s) := by
  cases wb with
  | none => exact hs
  | some r => exact hP.writeX _ _ hs

theorem KeptByOperations.writeBackB (wb : Option CopyRegs) (to_ from_ size : Word) :
    P (writeBackB wb to_ from_ size s) := by
  cases wb with
  | none => exact hs
  | some r => exact hP.writeX _ _ (hP.writeX _ _ (hP.writeX _ _ hs))

theorem KeptByOperations.copyLoopA (racc wacc : AccDesc) (wb : Option CopyRegs) (to_ from_ : Word) (fuel i : Nat)
    (size stg : Word) : (copyLoopA racc wacc wb to_ from_ fuel i size stg s).has P := by
  induction fuel generalizing i size stg s with
  | zero => exact hs
  | succ fuel ih =>
    by_cases h0 : stg = 0#64
    · rw [Machine.copyLoopA, if_pos h0]; exact hs
    have hblock := hP.moveBlock hs (from_ + size) (to_ + size) (s.blockSize i (magnitude true stg)) racc wacc
    simp only [Machine.copyLoopA, if_neg h0]
    cases hm : Machine.moveBlock s (from_ + size) (to_ + size) (s.blockSize i (magnitude true stg)) racc wacc with
    | ended o => rwa [hm] at hblock
    | done s1 _ =>
      rw [hm] at hblock
      exact ih (hP.writeBackA hblock _ _) _ _ _

theorem KeptByOperations.copyLoopB (racc wacc : AccDesc) (wb : Option CopyRegs) (fuel i : Nat) (w : Work) (stg : Word) :
    (copyLoopB racc wacc wb fuel i w stg s).has P := by
  induction fuel generalizing i w stg s with
  | zero => exact hs
  | succ fuel ih =>
    by_cases h0 : stg = 0#64
    · rw [Machine.copyLoopB, if_pos h0]; exact hs
    have hblock := hP.moveBlock hs w.from_ w.to_ (s.blockSize i (magnitude false stg)) racc wacc
    simp only [Machine.copyLoopB, if_neg h0]
    cases hm : Machine.moveBlock s w.from_ w.to_ (s.blockSize i (magnitude false stg)) racc wacc with
    | ended o => rwa [hm] at hblock
    | done s1 _ =>
      rw [hm] at hblock
      exact ih (hP.writeBackB hblock _ _ _ _) _ _ _

theorem KeptByOperations.copyStage (options : BitVec 4) (wb : Option CopyRegs) (optA : Bool) (w : Work) (stg : Word) :
    (copyStage options wb optA w stg s).has P := by
  cases optA with
  | false => exact hP.copyLoopB hs ..
  | true =>
    have hloop := hP.copyLoopA hs (s.readDesc options) (s.writeDesc options) wb w.to_ w.from_ (magnitude true stg) 0
      w.size stg
    simp only [Machine.copyStage, if_true]
    cases hl : Machine.copyLoopA (s.readDesc options) (s.writeDesc options) wb w.to_ w.from_ (magnitude true stg) 0
      w.size stg s <;> rwa [hl] at hloop

theorem KeptByOperations.prologue (options : BitVec 4) (r : CopyRegs) : outcomeHas P (prologue options r s) := by
  have hstage := hP.copyStage hs options none s.now.optionA
    (prologueWork s.now.optionA (s.readX r.d) (s.readX r.s) (s.readX r.n))
    (preSize s.now.preSize (prologueWork s.now.optionA (s.readX r.d) (s.readX r.s) (s.readX r.n)).size)
  simp only [Machine.prologue]
  generalize Machine.copyStage .. = flow at hstage ⊢
  cases flow with
  | ended o => exact hstage
  | done s1 w1 => exact hP.complete (hP.setFlags _ (hP.writeBackB hstage _ _ _ _))

theorem KeptByOperations.copyAndComplete (options : BitVec 4) (r : CopyRegs) (stg : Word) :
    outcomeHas P (copyAndComplete options r stg s) := by
  have hstage := hP.copyStage hs options (some r) s.now.optionA ⟨s.readX r.d, s.readX r.s, s.readX r.n⟩ stg
  rw [Machine.copyAndComplete]
  generalize Machine.copyStage .. = flow at hstage ⊢
  cases flow with
  | ended o => exact hstage
  | done s1 _ => exact hP.complete hstage

theorem KeptByOperations.mainStage (options : BitVec 4) (r : CopyRegs) : outcomeHas P (mainStage options r s) := by
  unfold Machine.mainStage
  split_ifs
  · exact hP.raise _ hs
  · exact hP.raise _ hs
  · exact hP.copyAndComplete hs ..

theorem KeptByOperations.epilogue (options : BitVec 4) (r : CopyRegs) : outcomeHas P (epilogue options r s) := by
  unfold Machine.epilogue
  split_ifs
  · exact hP.raise _ hs
  · exact hP.raise _ hs
  · exact hP.copyAndComplete hs ..

theorem KeptByOperations.afterChecks {operation : CopyRegs → Host.Outcome State Fault Refusal}
    (h : ∀ r, outcomeHas P (operation r)) (sz : BitVec 2) (rs rn rd : BitVec 5) :
    outcomeHas P (afterChecks sz rs rn rd s operation) := by
  rw [Machine.afterChecks]
  cases checks s sz rs rn rd with
  | undef c => exact hP.raise _ hs
  | nop => exact hP.complete hs
  | run r => exact h r

/-- What every operation keeps, every instruction keeps. -/
theorem KeptByOperations.exec {i : Instr} {t : State} (h : exec i s = .next t) : P t := by
  have hall : outcomeHas P (Machine.exec i s) := by
    cases i with
    | cpyfp sz op2 rs rn rd => exact hP.afterChecks hs (hP.prologue hs op2) sz rs rn rd
    | cpyfm sz op2 rs rn rd => exact hP.afterChecks hs (hP.mainStage hs op2) sz rs rn rd
    | cpyfe sz op2 rs rn rd => exact hP.afterChecks hs (hP.epilogue hs op2) sz rs rn rd
  rwa [h] at hall

end Kept

/-! ### Bytes under the program text -/

/-- `t` has the text of `s`, and its byte at `a`. -/
def sameTextAndByte (s : State) (a : Word) (t : State) : Prop := t.text = s.text ∧ t.byte a = s.byte a

/-- A write that is performed meets no text, so a byte under the text is none of its bytes. -/
theorem sameTextAndByte_kept {s : State} {a : Word} (ha : s.text.find a.toNat ≠ none) :
    KeptByOperations (sameTextAndByte s a) where
  access h := h
  raise _ h := h
  writeX _ _ h := h
  setFlags _ h := h
  complete h := h
  write := by
    rintro t _ addr _ v hw ⟨htext, hbyte⟩
    obtain ⟨hclear, rfl⟩ := memWrite_eq_done hw
    refine ⟨htext, .trans (Memory.read_writeBlock_outside fun i hi e => ha ?_) hbyte⟩
    rw [← htext, e]
    exact hclear i hi

/-- Settles O41: every operation keeps the text and a byte under it. -/
theorem bytesUnderTheTextStay : Obligations.BytesUnderTheTextStay :=
  fun _ _ _ _ h ha => ((sameTextAndByte_kept ha).exec ⟨rfl, rfl⟩ h).2

end Sys2Proof.Machine
end

section
/-! PROOFS. The decoder and the encoder (R60 to R66): every word whose constant bits stand is the packing of its fields,
so the decoder is known from what it answers for a packed word, and it answers an instruction exactly for that
instruction's own word. -/

namespace Sys2Proof

/-! ### Words and their fields -/

/-- A word is its nine fields of R61, laid out again. -/
theorem append_fields (w : BitVec 32) :
    w.extractLsb' 30 2 ++ w.extractLsb' 24 6 ++ w.extractLsb' 22 2 ++ w.extractLsb' 21 1 ++ w.extractLsb' 16 5
      ++ w.extractLsb' 12 4 ++ w.extractLsb' 10 2 ++ w.extractLsb' 5 5 ++ w.extractLsb' 0 5 = w := by
  apply BitVec.eq_of_getLsbD_eq
  intro i hi
  interval_cases i <;> simp only [BitVec.getLsbD_extractLsb', BitVec.getLsbD_append] <;> simp

theorem constantBitsOk_iff {w : BitVec 32} : constantBitsOk w = true ↔
    w.extractLsb' 24 6 = 0b011001#6 ∧ w.extractLsb' 21 1 = 0#1 ∧ w.extractLsb' 10 2 = 0b01#2 := by
  simp [constantBitsOk, and_assoc]

/-- A word whose constant bits stand is the packing of its fields (R61). -/
theorem packWord_of_constantBitsOk {w : BitVec 32} (h : constantBitsOk w = true) :
    packWord (w.extractLsb' 22 2) (w.extractLsb' 30 2) (w.extractLsb' 12 4) (w.extractLsb' 16 5) (w.extractLsb' 5 5)
      (w.extractLsb' 0 5) = w := by
  obtain ⟨h24, h21, h10⟩ := constantBitsOk_iff.mp h
  rw [packWord, ← h24, ← h21, ← h10]
  exact append_fields w

theorem constantBitsOk_packWord (op1 sz : BitVec 2) (op2 : BitVec 4) (rs rn rd : BitVec 5) :
    constantBitsOk (packWord op1 sz op2 rs rn rd) = true := by
  obtain ⟨_, h24, _, h21, _, _, h10, _, _⟩ := packWord_fields op1 sz op2 rs rn rd
  exact constantBitsOk_iff.mpr ⟨h24, h21, h10⟩

/-! ### Masks -/

/-- A field that the mask holds whole is the masked word's. -/
theorem extractLsb'_eq_of_masked {w m v : BitVec 32} (h : w &&& m = v) {start len : Nat}
    (hm : m.extractLsb' start len = BitVec.allOnes len) : w.extractLsb' start len = v.extractLsb' start len := by
  rw [← h, BitVec.extractLsb'_and, hm, BitVec.and_allOnes]

theorem constantBitsOk_iff_masked {w : BitVec 32} :
    constantBitsOk w = true ↔ w &&& 0x3F200C00#32 = 0x19000400#32 := by
  rw [constantBitsOk_iff]
  constructor
  · rintro ⟨h24, h21, h10⟩
    rw [← append_fields (w &&& 0x3F200C00#32)]
    simp [BitVec.extractLsb'_and, h24, h21, h10]
  · exact fun h => ⟨extractLsb'_eq_of_masked h rfl, extractLsb'_eq_of_masked h rfl, extractLsb'_eq_of_masked h rfl⟩

theorem masked_of_options_eq_zero {w : BitVec 32} (h : w.extractLsb' 12 4 = 0#4) : w &&& 0xF000#32 = 0#32 := by
  rw [← append_fields (w &&& 0xF000#32)]
  simp [BitVec.extractLsb'_and, h]

/-- A word that the mask of R63 takes to an `op1` is that `op1` packed with the fields outside the mask. -/
theorem packWord_of_masked {w : BitVec 32} {op1 : BitVec 2} (h : w &&& rowMask = packWord op1 0#2 0#4 0#5 0#5 0#5) :
    packWord op1 (w.extractLsb' 30 2) 0#4 (w.extractLsb' 16 5) (w.extractLsb' 5 5) (w.extractLsb' 0 5) = w := by
  obtain ⟨_, v24, v22, v21, _, v12, v10, _, _⟩ := packWord_fields op1 0#2 0#4 0#5 0#5 0#5
  have h24 := (extractLsb'_eq_of_masked h rfl).trans v24
  have h22 := (extractLsb'_eq_of_masked h rfl).trans v22
  have h21 := (extractLsb'_eq_of_masked h rfl).trans v21
  have h12 := (extractLsb'_eq_of_masked h rfl).trans v12
  have h10 := (extractLsb'_eq_of_masked h rfl).trans v10
  have hok : constantBitsOk w = true := constantBitsOk_iff.mpr ⟨h24, h21, h10⟩
  simpa only [h22, h12] using packWord_of_constantBitsOk hok

/-! ### What the decoder answers -/

theorem decodeWord_of_constantBits_differ {w : BitVec 32} (h : constantBitsOk w = false) :
    decodeWord w = .error .notInTable := by
  simp [decodeWord, h]

theorem decodeWord_of_options {w : BitVec 32} (h : constantBitsOk w = true) (ho : w.extractLsb' 12 4 ≠ 0#4) :
    decodeWord w = .error .optionsNotInSource := by
  simp [decodeWord, h, ho]

/-- Where the options are 0000, `op1` alone says what a packed word is (R63, R65). -/
theorem decodeWord_packWord (op1 sz : BitVec 2) (rs rn rd : BitVec 5) :
    decodeWord (packWord op1 sz 0#4 rs rn rd) =
      if op1 = 0b00#2 then .ok (.cpyfp sz 0#4 rs rn rd)
      else if op1 = 0b01#2 then .ok (.cpyfm sz 0#4 rs rn rd)
      else if op1 = 0b10#2 then .ok (.cpyfe sz 0#4 rs rn rd)
      else .error .seeMemoryCopyAndMemorySet := by
  obtain ⟨h30, _, h22, _, h16, h12, _, h5, h0⟩ := packWord_fields op1 sz 0#4 rs rn rd
  simp [decodeWord, decodeFields, constantBitsOk_packWord, h30, h22, h16, h12, h5, h0]

theorem decodeWord_encodeWord {i : Instr} (h : i.wf = true) : decodeWord (encodeWord i) = .ok i := by
  cases i <;> obtain rfl := eq_of_beq h <;> exact decodeWord_packWord ..

/-- The decoder answers an instruction exactly for that instruction's own word. -/
theorem decodeWord_eq_ok_iff {w : BitVec 32} {i : Instr} :
    decodeWord w = .ok i ↔ i.wf = true ∧ encodeWord i = w := by
  refine ⟨fun h => ?_, fun ⟨hwf, hw⟩ => hw ▸ decodeWord_encodeWord hwf⟩
  have hok : constantBitsOk w = true := by
    by_contra hn
    simp [decodeWord_of_constantBits_differ (eq_false_of_ne_true hn)] at h
  have ho : w.extractLsb' 12 4 = 0#4 := by
    by_contra hn
    simp [decodeWord_of_options hok hn] at h
  have hw := packWord_of_constantBitsOk hok
  rw [ho] at hw
  rw [← hw, decodeWord_packWord] at h
  split_ifs at h with h0 h1 h2 <;> cases h
  · exact ⟨rfl, by rwa [h0] at hw⟩
  · exact ⟨rfl, by rwa [h1] at hw⟩
  · exact ⟨rfl, by rwa [h2] at hw⟩

/-- The bytes of a word decode as the word, with nothing after them (R60). -/
theorem decode_bytesOfWord (w : BitVec 32) : decode (bytesOfWord w) = (decodeWord w).map (fun i => (i, [])) := by
  rw [bytesOfWord, decode, wordOfBytes_bytesOfWord]

/-- A well-formed instruction's word is in that instruction's row (R63). -/
theorem encodeWord_masked {i : Instr} (h : i.wf = true) : encodeWord i &&& rowMask = i.rowMatch := by
  cases i
  · exact Laws.TableRow.cpyfp _ _ _ _ _ h
  · exact Laws.TableRow.cpyfm _ _ _ _ _ h
  · exact Laws.TableRow.cpyfe _ _ _ _ _ h

/-! ### The statements about words -/

/-- Settles O1: the word by `decodeWord_encodeWord`, the bytes because they make the word again. -/
theorem decodeOfEncodeIsIdentity : Obligations.DecodeOfEncodeIsIdentity := fun i h => by
  have hword := decodeWord_encodeWord h
  exact ⟨hword, by rw [encode, decode_bytesOfWord, hword]; rfl⟩

/-- Settles O2: a word that decodes is the packing of its fields. -/
theorem encodeOfDecodeIsIdentity : Obligations.EncodeOfDecodeIsIdentity := fun _ _ => decodeWord_eq_ok_iff.mp

/-- Settles O3: a word under a row's mask value is the word of its own fields, and the word of a well-formed
instruction has one of the three mask values. -/
theorem tableRowsDecode : Obligations.TableRowsDecode := by
  refine fun w => ⟨fun h => ?_, fun h => ?_, fun h => ?_, fun hp hm he i hi => ?_⟩
  · exact decodeWord_eq_ok_iff.mpr ⟨rfl, packWord_of_masked (op1 := 0b00#2) h⟩
  · exact decodeWord_eq_ok_iff.mpr ⟨rfl, packWord_of_masked (op1 := 0b01#2) h⟩
  · exact decodeWord_eq_ok_iff.mpr ⟨rfl, packWord_of_masked (op1 := 0b10#2) h⟩
  · obtain ⟨hwf, rfl⟩ := decodeWord_eq_ok_iff.mp hi
    have hrow := encodeWord_masked hwf
    cases i with
    | cpyfp => exact hp hrow
    | cpyfm => exact hm hrow
    | cpyfe => exact he hrow

/-- Settles O4: six words, decoded. -/
theorem specWordsDecode : Obligations.SpecWordsDecode := by
  unfold Obligations.SpecWordsDecode
  decide

end Sys2Proof

namespace Sys2Proof.Machine

/-! ### Words that are refused -/

theorem step_of_decode_error {s : State} {w : BitVec 32} {e : DecodeError} (hf : s.fault = none)
    (h : s.fetch = .ok (bytesOfWord w)) (hd : decodeWord w = .error e) : step s = .refused (DecodeError.refusal e) := by
  simp [step, State.nextInstr, hf, h, decode_bytesOfWord, hd, Except.map]

/-- Settles O7: the decoder answers the error that names the refusal, and the step hands it on. -/
theorem wordsOffTheTableAreRefused : Obligations.WordsOffTheTableAreRefused := by
  refine fun s w hf h => ⟨fun hrow => ?_, fun hconst hopt => ?_, fun hconst => ?_⟩
  · have hw := packWord_of_masked (op1 := 0b11#2) hrow
    exact step_of_decode_error hf h (hw ▸ decodeWord_packWord ..)
  · have hok := constantBitsOk_iff_masked.mpr hconst
    exact step_of_decode_error hf h (decodeWord_of_options hok (mt masked_of_options_eq_zero hopt))
  · have hok := eq_false_of_ne_true (mt constantBitsOk_iff_masked.mp hconst)
    exact step_of_decode_error hf h (decodeWord_of_constantBits_differ hok)

end Sys2Proof.Machine
end

section
/-! PROOFS. The checks before the Operation (R64, R67, R70): what each of them answers, where all of them pass, and what
an instruction does that one of them ends. -/

namespace Sys2Proof.Machine

/-! ### The register numbers -/

theorem registersClash_iff {rs rn rd : BitVec 5} :
    registersClash rs rn rd = true ↔ rs = rn ∨ rs = rd ∨ rn = rd ∨ rd = 31#5 ∨ rs = 31#5 ∨ rn = 31#5 := by
  simp [registersClash, or_assoc]

/-- A field names the register of its own number, and 31 names none (R20, R21). -/
theorem regNum?_eq_some_iff {f : BitVec 5} {i : RegNum} : regNum? f = some i ↔ i.val = f.toNat := by
  unfold regNum?
  split_ifs with h
  · simp [Fin.ext_iff, eq_comm]
  · have := i.isLt
    simp only [false_iff]
    omega

theorem copyRegs?_of_clash {rs rn rd : BitVec 5} (h : registersClash rs rn rd = true) : copyRegs? rs rn rd = none :=
  if_pos h

theorem copyRegs?_eq_some_iff_fields {rs rn rd : BitVec 5} {r : CopyRegs} :
    copyRegs? rs rn rd = some r ↔
      registersClash rs rn rd = false ∧ regNum? rd = some r.d ∧ regNum? rs = some r.s ∧ regNum? rn = some r.n := by
  obtain ⟨d, s, n⟩ := r
  unfold copyRegs?
  split_ifs with hc
  · simp [hc]
  · split
    next hd hs hn => simp [hc, hd, hs, hn]
    next hnone => simpa [hc] using hnone d s n

/-- The registers of a copy are those of its fields, and are three (R67, R83). -/
theorem copyRegs?_eq_some_iff {rs rn rd : BitVec 5} {r : CopyRegs} :
    copyRegs? rs rn rd = some r ↔
      r.d.val = rd.toNat ∧ r.s.val = rs.toNat ∧ r.n.val = rn.toNat ∧ r.s ≠ r.n ∧ r.s ≠ r.d ∧ r.n ≠ r.d := by
  have := r.d.isLt
  have := r.s.isLt
  have := r.n.isLt
  simp only [copyRegs?_eq_some_iff_fields, regNum?_eq_some_iff, ← Bool.not_eq_true, registersClash_iff,
    ← BitVec.toNat_inj, BitVec.toNat_ofNat, ne_eq, Fin.ext_iff]
  omega

/-! ### What the checks answer -/

section Checks

variable {s : State} {sz : BitVec 2} {rs rn rd : BitVec 5} {i : Instr} {c : UndefCase}

theorem checks_of_no_feature (h : s.cfg.haveMops = false) : checks s sz rs rn rd = .undef .noFeature := by
  simp [checks, h]

theorem checks_of_sizeField (h : s.cfg.haveMops = true) (hz : sz ≠ 0b00#2) :
    checks s sz rs rn rd = .undef .sizeField := by
  simp [checks, h, hz]

theorem checks_of_not_enabled (h : s.cfg.haveMops = true) (he : s.mopsEnabled = false) :
    checks s 0b00#2 rs rn rd = .undef .notEnabled := by
  simp [checks, h, he]

section NoRegisters

variable (h : s.cfg.haveMops = true) (he : s.mopsEnabled = true) (hr : copyRegs? rs rn rd = none)
include h he hr

theorem checks_of_no_registers_undef (ho : s.now.overlap31 = .undef) :
    checks s 0b00#2 rs rn rd = .undef .registers := by
  simp [checks, h, he, hr, ho]

theorem checks_of_no_registers_nop (ho : s.now.overlap31 = .nop) : checks s 0b00#2 rs rn rd = .nop := by
  simp [checks, h, he, hr, ho]

end NoRegisters

theorem checks_of_registers {r : CopyRegs} (h : s.cfg.haveMops = true) (he : s.mopsEnabled = true)
    (hr : copyRegs? rs rn rd = some r) : checks s 0b00#2 rs rn rd = .run r := by
  simp [checks, h, he, hr]

/-- The Operation runs exactly where every check passes. -/
theorem checks_eq_run_iff {r : CopyRegs} :
    checks s sz rs rn rd = .run r ↔
      s.cfg.haveMops = true ∧ sz = 0b00#2 ∧ s.mopsEnabled = true ∧ copyRegs? rs rn rd = some r := by
  refine ⟨fun hrun => ?_, fun ⟨hm, hz, he, hr⟩ => hz ▸ checks_of_registers hm he hr⟩
  cases hm : s.cfg.haveMops with
  | false => simp [checks_of_no_feature hm] at hrun
  | true =>
    by_cases hz : sz = 0b00#2
    · subst hz
      cases he : s.mopsEnabled with
      | false => simp [checks_of_not_enabled hm he] at hrun
      | true =>
        cases hr : copyRegs? rs rn rd with
        | some r' => simpa [checks_of_registers hm he hr] using hrun
        | none =>
          cases ho : s.now.overlap31 with
          | undef => simp [checks_of_no_registers_undef hm he hr ho] at hrun
          | nop => simp [checks_of_no_registers_nop hm he hr ho] at hrun
    · simp [checks_of_sizeField hm hz] at hrun

/-! ### An instruction that a check ends -/

theorem checksOf_of_no_feature (h : s.cfg.haveMops = false) : checksOf i s = .undef .noFeature := by
  cases i <;> exact checks_of_no_feature h

theorem checksOf_of_sizeField (h : s.cfg.haveMops = true) (hz : sizeFieldOf i ≠ 0b00#2) :
    checksOf i s = .undef .sizeField := by
  cases i <;> exact checks_of_sizeField h hz

theorem exec_of_checksOf_undef (h : checksOf i s = .undef c) : exec i s = .next (s.raise (.undefined c)) := by
  rcases exec_cases i s with ⟨_, hc, he⟩ | ⟨hc, _⟩ | ⟨_, hc, _⟩ <;> rw [h] at hc <;> cases hc
  exact he

theorem exec_of_checksOf_nop (h : checksOf i s = .nop) : exec i s = .next s.complete := by
  rcases exec_cases i s with ⟨_, hc, _⟩ | ⟨hc, he⟩ | ⟨_, hc, _⟩ <;> rw [h] at hc <;> cases hc
  exact he

theorem exec_of_no_feature (h : s.cfg.haveMops = false) : exec i s = .next (s.raise (.undefined .noFeature)) :=
  exec_of_checksOf_undef (checksOf_of_no_feature h)

theorem exec_of_sizeField (h : s.cfg.haveMops = true) (hz : sizeFieldOf i ≠ 0b00#2) :
    exec i s = .next (s.raise (.undefined .sizeField)) :=
  exec_of_checksOf_undef (checksOf_of_sizeField h hz)

end Checks

/-! ### The statements about the checks -/

/-- Settles O11: the checks pass one by one, and the fields name three registers. -/
theorem operationRunsWhenAllChecksPass : Obligations.OperationRunsWhenAllChecksPass := fun _ _ _ _ _ _ =>
  checks_eq_run_iff.trans (and_congr_right' (and_congr_right' (and_congr_right' copyRegs?_eq_some_iff)))

/-- Settles O9: the two tests end the checks of every instruction, the feature test first. -/
theorem featureAndSizeFieldTestsComeFirst : Obligations.FeatureAndSizeFieldTestsComeFirst := fun _ _ _ _ _ _ =>
  ⟨fun h => ⟨exec_of_no_feature h, exec_of_no_feature h, exec_of_no_feature h⟩,
    fun h hz => ⟨exec_of_sizeField h hz, exec_of_sizeField h hz, exec_of_sizeField h hz⟩⟩

/-- Settles O10: the three instructions have the same checks, and each outcome of these ends the instruction. -/
theorem enableCheckAndRegisterClash : Obligations.EnableCheckAndRegisterClash := by
  intro s op2 rs rn rd i hi hm
  have hchecks : checksOf i s = checks s 0b00#2 rs rn rd := by obtain rfl | rfl | rfl := hi <;> rfl
  refine ⟨fun he => exec_of_checksOf_undef (hchecks.trans (checks_of_not_enabled hm he)), fun he hregs => ?_⟩
  have hr : copyRegs? rs rn rd = none := copyRegs?_of_clash (registersClash_iff.mpr hregs)
  exact ⟨fun ho => exec_of_checksOf_undef (hchecks.trans (checks_of_no_registers_undef hm he hr ho)),
    fun ho => exec_of_checksOf_nop (hchecks.trans (checks_of_no_registers_nop hm he hr ho))⟩

/-- Settles O48: the feature test or the sz test answers, and both look at HAVE_MOPS and the word only. -/
theorem undefinedEncodingsOfTheClass : Obligations.UndefinedEncodingsOfTheClass := by
  intro i s h
  cases hm : s.cfg.haveMops with
  | false => exact ⟨_, checksOf_of_no_feature hm, fun _ => checksOf_of_no_feature⟩
  | true =>
    have hz : sizeFieldOf i ≠ 0b00#2 := h.resolve_left (by simp [hm])
    exact ⟨_, checksOf_of_sizeField hm hz, fun _ ht => checksOf_of_sizeField ht hz⟩

end Sys2Proof.Machine
end

section
/-! PROOFS. The sizes of a copy and the draws that depend on them: saturation and negation (R95), a size as a number of
bytes in the format of the option (R93), and the constraints of R89 on the draws. -/

namespace Sys2Proof.Machine

/-! ### Words as signed numbers -/

theorem Word.bit63_iff (w : Word) : w[63] = true ↔ w.toInt < 0 := by
  have h := BitVec.msb_eq_toInt (x := w)
  rw [BitVec.msb_eq_getLsbD_last] at h
  simp [show w[63] = decide (w.toInt < 0) by simpa using h]

/-- Two sign bits agree exactly where the signs do. -/
theorem Word.bit63_eq_iff (v w : Word) : v[63] = w[63] ↔ (v.toInt < 0 ↔ w.toInt < 0) := by
  rw [← Word.bit63_iff, ← Word.bit63_iff, Bool.eq_iff_iff]

theorem Word.toInt_eq_zero_iff (w : Word) : w.toInt = 0 ↔ w = 0#64 := by
  rw [← BitVec.toInt_inj, BitVec.toInt_zero]

/-! ### Saturation and negation -/

theorem saturate_of_lt {x : Word} (h : x.toNat < 2 ^ 63) : saturate x = x := by
  have : ¬ x[63] = true := by rw [Word.bit63_iff, Word.toInt_cases, if_pos h]; omega
  simp [saturate, this]

theorem saturate_of_ge {x : Word} (h : 2 ^ 63 ≤ x.toNat) : saturate x = 0x7FFFFFFFFFFFFFFF#64 := by
  have : x[63] = true := by rw [Word.bit63_iff, Word.toInt_cases, if_neg (by omega)]; omega
  simp [saturate, this]

theorem saturate_toNat_lt (x : Word) : (saturate x).toNat < 2 ^ 63 := by
  by_cases h : x.toNat < 2 ^ 63
  · rwa [saturate_of_lt h]
  · rw [saturate_of_ge (by omega)]
    decide

theorem saturate_toInt (x : Word) : (saturate x).toInt = (saturate x).toNat := by
  rw [Word.toInt_cases, if_pos (saturate_toNat_lt x)]

theorem toInt_zero_sub {w : Word} (h : w.toNat < 2 ^ 63) : (0#64 - w).toInt = -(w.toNat : Int) := by
  rw [Word.toInt_cases, BitVec.toNat_sub]
  simp only [BitVec.toNat_ofNat]
  split_ifs <;> omega

theorem zero_sub_saturate_toInt (x : Word) : (0#64 - saturate x).toInt = -((saturate x).toNat : Int) :=
  toInt_zero_sub (saturate_toNat_lt x)

/-- Settles O28: the saturated size is below 2^63, so its sign bit is clear and its negation does not wrap. -/
theorem saturationAndNegation : Obligations.SaturationAndNegation := by
  intro x
  have hlt := saturate_toNat_lt x
  have hneg := zero_sub_saturate_toInt x
  refine ⟨saturate_of_lt, saturate_of_ge, by omega, by rw [saturate_toInt]; omega, by omega, by omega, fun h => ?_⟩
  have : (0x8000000000000000#64 : Word).toInt = -2 ^ 63 := by decide
  rw [h] at hneg
  omega

/-! ### The prologue's size choice -/

theorem preAdmissible_iff {size stg : Word} : preAdmissible size stg = true ↔
    (stg[63] = size[63] ∨ stg = 0#64) ∧ (size.toInt > 0 → stg.toInt ≤ size.toInt) ∧
      (size.toInt ≤ 0 → stg.toInt ≥ size.toInt) ∧ (size = 0#64 → stg = 0#64) := by
  by_cases h : size.toInt > 0 <;> simp [preAdmissible, h, and_assoc, imp_iff_not_or]

theorem preAdmissible_zero (size : Word) : preAdmissible size 0#64 = true := by
  rw [preAdmissible_iff, BitVec.toInt_zero]
  exact ⟨.inr rfl, le_of_lt, id, fun _ => rfl⟩

/-- A draw that stands for itself where it is admissible, and else for an admissible value, takes exactly the
admissible values (log entry 6). -/
theorem exists_ite_eq_iff {P : Word → Bool} (h0 : P 0#64 = true) (v : Word) :
    (∃ raw, (if P raw then raw else 0#64) = v) ↔ P v = true := by
  refine ⟨?_, fun h => ⟨v, if_pos h⟩⟩
  rintro ⟨raw, rfl⟩
  split_ifs with h
  · exact h
  · exact h0

theorem exists_preSize_iff {size stg : Word} : (∃ raw, preSize raw size = stg) ↔ preAdmissible size stg = true :=
  exists_ite_eq_iff (preAdmissible_zero size) stg

/-- The bounds that R89 (P) draws for the negated size of option A. -/
theorem preAdmissible_negated_iff (x stg : Word) : preAdmissible (0#64 - saturate x) stg = true ↔
    (0#64 - saturate x).toInt ≤ stg.toInt ∧ stg.toInt ≤ 0 := by
  have hneg := zero_sub_saturate_toInt x
  simp only [preAdmissible_iff, Word.bit63_eq_iff, ← Word.toInt_eq_zero_iff]
  omega

/-- The bound that R89 (P) draws for the saturated size of option B. -/
theorem preAdmissible_saturated_iff (x stg : Word) : preAdmissible (saturate x) stg = true ↔
    stg.toNat ≤ (saturate x).toNat := by
  have hlt := saturate_toNat_lt x
  have hint := saturate_toInt x
  have hstg := Word.toInt_cases stg
  have := stg.isLt
  simp only [preAdmissible_iff, Word.bit63_eq_iff, ← Word.toInt_eq_zero_iff]
  split_ifs at hstg <;> omega

/-- Settles O19: the values of the draw are the admissible ones, and the sizes that CPYFP has give their bounds. -/
theorem preSizeIsExactlyAdmissible : Obligations.PreSizeIsExactlyAdmissible :=
  ⟨fun _ _ => exists_preSize_iff.trans preAdmissible_iff,
    fun x stg => exists_preSize_iff.trans (preAdmissible_negated_iff x stg),
    fun x stg => exists_preSize_iff.trans (preAdmissible_saturated_iff x stg)⟩

/-! ### The post size -/

theorem postAdmissible_true_iff {size post : Word} : postAdmissible true size post = true ↔
    (post[63] = size[63] ∨ post = 0#64) ∧ (size.toInt ≤ 0 → size.toInt ≤ post.toInt ∧ post.toInt ≤ 0) := by
  by_cases h : size.toInt ≤ 0 <;> simp [postAdmissible, h]

theorem postAdmissible_false_iff {size post : Word} : postAdmissible false size post = true ↔
    (post[63] = size[63] ∨ post = 0#64) ∧ post.toNat ≤ size.toNat := by
  simp [postAdmissible]

theorem postAdmissible_zero (optA : Bool) (size : Word) : postAdmissible optA size 0#64 = true := by
  cases optA
  · simp [postAdmissible_false_iff]
  · simp [postAdmissible_true_iff]

/-- All that remains may be left to the epilogue. -/
theorem postAdmissible_same (optA : Bool) (size : Word) : postAdmissible optA size size = true := by
  cases optA
  · simp [postAdmissible_false_iff]
  · simp [postAdmissible_true_iff]

theorem postSize_same (optA : Bool) (size : Word) : postSize optA size size = size :=
  if_pos (postAdmissible_same optA size)

theorem exists_postSize_iff {optA : Bool} {size post : Word} :
    (∃ raw, postSize optA raw size = post) ↔ postAdmissible optA size post = true :=
  exists_ite_eq_iff (postAdmissible_zero optA size) post

/-- Nothing can be left to the epilogue of nothing. -/
@[simp] theorem postSize_zero (optA : Bool) (raw : Word) : postSize optA raw 0#64 = 0#64 := by
  have h := postSize_admissible optA raw 0#64
  cases optA with
  | false =>
    obtain ⟨_, hle⟩ := postAdmissible_false_iff.mp h
    exact BitVec.eq_of_toNat_eq (by simpa using hle)
  | true =>
    obtain ⟨_, hbounds⟩ := postAdmissible_true_iff.mp h
    obtain ⟨hge, hle⟩ := hbounds (by simp)
    rw [BitVec.toInt_zero] at hge
    exact (Word.toInt_eq_zero_iff _).mp (by omega)

/-- Settles O20: the values of the draw are the admissible ones of the option. -/
theorem postSizeIsExactlyAdmissible : Obligations.PostSizeIsExactlyAdmissible :=
  ⟨fun _ _ => exists_postSize_iff.trans postAdmissible_true_iff,
    fun _ _ => exists_postSize_iff.trans postAdmissible_false_iff, postSize_zero⟩

/-! ### The block size -/

theorem blockAdmissible_iff {limit left b : Nat} :
    blockAdmissible limit left b = true ↔ 1 ≤ b ∧ b ≤ limit ∧ b ≤ left := by
  simp [blockAdmissible, and_assoc]

theorem State.blockSize_of_admissible {s : State} {i left : Nat}
    (h : blockAdmissible s.cfg.blockLimit left (s.rawBlock i) = true) : s.blockSize i left = s.rawBlock i := if_pos h

theorem State.rawBlock_of_listed {s : State} {i b : Nat} (h : s.now.blocks[i]? = some b) : s.rawBlock i = b := by
  simp [State.rawBlock, h]

/-- The draws of an instruction whose blocks are drawn as `b` up to block `i`. -/
def Draws.withBlock (i b : Nat) : Draws := { (default : Draws) with blocks := List.replicate (i + 1) b }

theorem illformed_eq_true {optA drawn : Bool} {size : Word} :
    illformed optA drawn size = true ↔ drawn = true ∨ (optA = true ∧ size.toInt > 0) := by
  simp [illformed]

/-- Settles O21: an admissible block size is drawn by the list that holds it. -/
theorem blockSizeIsExactlyAdmissible : Obligations.BlockSizeIsExactlyAdmissible := by
  refine ⟨fun s i left => s.blockSize_admissible i, fun s left b h1 hlimit hleft i => ⟨[Draws.withBlock i b], ?_⟩,
    fun _ _ _ => illformed_eq_true⟩
  have hraw : ({ s with draws := [Draws.withBlock i b] } : State).rawBlock i = b :=
    State.rawBlock_of_listed (by simp [State.now, Draws.withBlock])
  rw [State.blockSize_of_admissible (by rw [hraw]; exact blockAdmissible_iff.mpr ⟨h1, hlimit, hleft⟩), hraw]

end Sys2Proof.Machine
end

section
/-! PROOFS. The two copy loops as while loops (R87, R88): one round of each, and that the bound on the number of blocks
plays no part. -/

namespace Sys2Proof.Machine

/-! ### One round of a loop -/

section Round

variable {racc wacc : AccDesc} {wb : Option CopyRegs} {stg : Word} {i : Nat} {s : State}

theorem one_le_magnitude {optA : Bool} (h : stg ≠ 0#64) : 1 ≤ magnitude optA stg :=
  Nat.one_le_iff_ne_zero.mpr (mt magnitude_eq_zero.mp h)

theorem copyLoopA_of_zero (to_ from_ : Word) (fuel : Nat) (size : Word) :
    copyLoopA racc wacc wb to_ from_ fuel i size 0#64 s = .done s size := by
  cases fuel <;> simp [copyLoopA]

theorem copyLoopB_of_zero (fuel : Nat) (w : Work) : copyLoopB racc wacc wb fuel i w 0#64 s = .done s w := by
  cases fuel <;> simp [copyLoopB]

/-- What loop A does after the block of size `b`, with `fuel` more blocks allowed. -/
def afterBlockA (racc wacc : AccDesc) (wb : Option CopyRegs) (to_ from_ : Word) (fuel i : Nat) (size stg : Word)
    (b : Nat) : Flow Unit → Flow Word
  | .ended o => .ended o
  | .done s _ => copyLoopA racc wacc wb to_ from_ fuel (i + 1) (size + BitVec.ofNat 64 b) (stg + BitVec.ofNat 64 b)
      (writeBackA wb (size + BitVec.ofNat 64 b) s)

/-- The working values of loop B after a block of size `b`. -/
def Work.afterBlockB (w : Work) (b : Nat) : Work :=
  ⟨w.to_ + BitVec.ofNat 64 b, w.from_ + BitVec.ofNat 64 b, w.size - BitVec.ofNat 64 b⟩

/-- What loop B does after the block of size `b`, with `fuel` more blocks allowed. -/
def afterBlockB (racc wacc : AccDesc) (wb : Option CopyRegs) (fuel i : Nat) (w : Work) (stg : Word) (b : Nat) :
    Flow Unit → Flow Work
  | .ended o => .ended o
  | .done s _ => copyLoopB racc wacc wb fuel (i + 1) (w.afterBlockB b) (stg - BitVec.ofNat 64 b)
      (writeBackB wb (w.afterBlockB b).to_ (w.afterBlockB b).from_ (w.afterBlockB b).size s)

theorem copyLoopA_succ (h : stg ≠ 0#64) (to_ from_ : Word) (fuel : Nat) (size : Word) :
    copyLoopA racc wacc wb to_ from_ (fuel + 1) i size stg s =
      afterBlockA racc wacc wb to_ from_ fuel i size stg (s.blockSize i (magnitude true stg))
        (moveBlock s (from_ + size) (to_ + size) (s.blockSize i (magnitude true stg)) racc wacc) := by
  rw [copyLoopA, if_neg h]
  rfl

theorem copyLoopB_succ (h : stg ≠ 0#64) (fuel : Nat) (w : Work) :
    copyLoopB racc wacc wb (fuel + 1) i w stg s =
      afterBlockB racc wacc wb fuel i w stg (s.blockSize i (magnitude false stg))
        (moveBlock s w.from_ w.to_ (s.blockSize i (magnitude false stg)) racc wacc) := by
  rw [copyLoopB, if_neg h]
  rfl

end Round

/-! ### The bound plays no part -/

theorem copyLoopA_bound (racc wacc : AccDesc) (wb : Option CopyRegs) (to_ from_ : Word) {fuel fuel' : Nat} (i : Nat)
    (size : Word) {stg : Word} (s : State) (hf : magnitude true stg ≤ fuel) (hf' : magnitude true stg ≤ fuel') :
    copyLoopA racc wacc wb to_ from_ fuel i size stg s = copyLoopA racc wacc wb to_ from_ fuel' i size stg s := by
  induction fuel generalizing fuel' i size stg s with
  | zero =>
    obtain rfl : stg = 0#64 := magnitude_eq_zero.mp (Nat.le_zero.mp hf)
    simp only [copyLoopA_of_zero]
  | succ fuel ih =>
    by_cases h0 : stg = 0#64
    · subst h0
      simp only [copyLoopA_of_zero]
    · obtain ⟨hb1, _, hb3⟩ := s.blockSize_admissible i (one_le_magnitude (optA := true) h0)
      have hleft := magnitudeA_step hb3
      obtain ⟨fuel', rfl⟩ : ∃ f, fuel' = f + 1 := ⟨fuel' - 1, by omega⟩
      rw [copyLoopA_succ h0, copyLoopA_succ h0]
      cases moveBlock s (from_ + size) (to_ + size) (s.blockSize i (magnitude true stg)) racc wacc with
      | ended o => rfl
      | done s1 _ => exact ih (i + 1) _ _ (by omega) (by omega)

theorem copyLoopB_bound (racc wacc : AccDesc) (wb : Option CopyRegs) {fuel fuel' : Nat} (i : Nat) (w : Work)
    {stg : Word} (s : State) (hf : magnitude false stg ≤ fuel) (hf' : magnitude false stg ≤ fuel') :
    copyLoopB racc wacc wb fuel i w stg s = copyLoopB racc wacc wb fuel' i w stg s := by
  induction fuel generalizing fuel' i w stg s with
  | zero =>
    obtain rfl : stg = 0#64 := magnitude_eq_zero.mp (Nat.le_zero.mp hf)
    simp only [copyLoopB_of_zero]
  | succ fuel ih =>
    by_cases h0 : stg = 0#64
    · subst h0
      simp only [copyLoopB_of_zero]
    · obtain ⟨hb1, _, hb3⟩ := s.blockSize_admissible i (one_le_magnitude (optA := false) h0)
      have hleft := magnitudeB_step hb3
      obtain ⟨fuel', rfl⟩ : ∃ f, fuel' = f + 1 := ⟨fuel' - 1, by omega⟩
      rw [copyLoopB_succ h0, copyLoopB_succ h0]
      cases moveBlock s w.from_ w.to_ (s.blockSize i (magnitude false stg)) racc wacc with
      | ended o => rfl
      | done s1 _ => exact ih (i + 1) _ _ (by omega) (by omega)

/-- One round of loop A, with any bound that leaves the rest of the stage. -/
theorem copyLoopA_round {racc wacc : AccDesc} {wb : Option CopyRegs} {to_ from_ size stg : Word} {fuel fuel' i : Nat}
    {s : State} (h0 : stg ≠ 0#64) (hf : magnitude true stg ≤ fuel)
    (hf' : magnitude true stg - s.blockSize i (magnitude true stg) ≤ fuel') :
    copyLoopA racc wacc wb to_ from_ fuel i size stg s =
      afterBlockA racc wacc wb to_ from_ fuel' i size stg (s.blockSize i (magnitude true stg))
        (moveBlock s (from_ + size) (to_ + size) (s.blockSize i (magnitude true stg)) racc wacc) := by
  obtain ⟨hb1, _, hb3⟩ := s.blockSize_admissible i (one_le_magnitude (optA := true) h0)
  have hleft := magnitudeA_step hb3
  obtain ⟨fuel, rfl⟩ : ∃ f, fuel = f + 1 := ⟨fuel - 1, by omega⟩
  rw [copyLoopA_succ h0]
  cases moveBlock s (from_ + size) (to_ + size) (s.blockSize i (magnitude true stg)) racc wacc with
  | ended o => rfl
  | done s1 _ => exact copyLoopA_bound racc wacc wb to_ from_ (i + 1) _ _ (by omega) (by omega)

/-- One round of loop B, with any bound that leaves the rest of the stage. -/
theorem copyLoopB_round {racc wacc : AccDesc} {wb : Option CopyRegs} {w : Work} {stg : Word} {fuel fuel' i : Nat}
    {s : State} (h0 : stg ≠ 0#64) (hf : magnitude false stg ≤ fuel)
    (hf' : magnitude false stg - s.blockSize i (magnitude false stg) ≤ fuel') :
    copyLoopB racc wacc wb fuel i w stg s =
      afterBlockB racc wacc wb fuel' i w stg (s.blockSize i (magnitude false stg))
        (moveBlock s w.from_ w.to_ (s.blockSize i (magnitude false stg)) racc wacc) := by
  obtain ⟨hb1, _, hb3⟩ := s.blockSize_admissible i (one_le_magnitude (optA := false) h0)
  have hleft := magnitudeB_step hb3
  obtain ⟨fuel, rfl⟩ : ∃ f, fuel = f + 1 := ⟨fuel - 1, by omega⟩
  rw [copyLoopB_succ h0]
  cases moveBlock s w.from_ w.to_ (s.blockSize i (magnitude false stg)) racc wacc with
  | ended o => rfl
  | done s1 _ => exact copyLoopB_bound racc wacc wb (i + 1) _ _ (by omega) (by omega)

/-- Settles O22: one round moves a block by its read and its write, and the rest of the stage needs no larger bound. -/
theorem loopAIsTheWhileLoop : Obligations.LoopAIsTheWhileLoop := by
  intro racc wacc wb to_ from_ size stg fuel i s hf
  refine ⟨fun h0 => h0 ▸ copyLoopA_of_zero .., fun h0 => ?_⟩
  obtain ⟨hb1, hb2, hb3⟩ := s.blockSize_admissible i (one_le_magnitude (optA := true) h0)
  refine ⟨_, rfl, hb1, hb2, hb3, magnitudeA_step hb3, fun fuel' hf' => ?_⟩
  rw [copyLoopA_round h0 hf hf', moveBlock]
  cases memRead s (from_ + size) (s.blockSize i (magnitude true stg)) racc with
  | ended o => rfl
  | done s1 data => cases hw : memWrite s1 (to_ + size) wacc data <;> simp only [hw] <;> rfl

/-- Settles O23: as for loop A. -/
theorem loopBIsTheWhileLoop : Obligations.LoopBIsTheWhileLoop := by
  intro racc wacc wb to_ from_ size stg fuel i s hf
  refine ⟨fun h0 => h0 ▸ copyLoopB_of_zero .., fun h0 => ?_⟩
  obtain ⟨hb1, hb2, hb3⟩ := s.blockSize_admissible i (one_le_magnitude (optA := false) h0)
  refine ⟨_, rfl, hb1, hb2, hb3, magnitudeB_step hb3, fun fuel' hf' => ?_⟩
  rw [copyLoopB_round h0 hf hf', moveBlock]
  have e : magnitude false stg = stg.toNat := rfl
  rw [e]
  cases memRead s from_ (s.blockSize i stg.toNat) racc with
  | ended o => rfl
  | done s1 data => cases hw : memWrite s1 to_ wacc data <;> simp only [hw] <;> rfl

end Sys2Proof.Machine
end

section
/-! PROOFS. The access descriptors of a copy, level by level (R81), and for the encodings in scope (R82). -/

namespace Sys2Proof.Machine

section Privilege

variable {s : State} (options : BitVec 4) (i : Fin 4)

theorem State.privileged_at_el0 (hel : s.el = .el0) : s.privileged options i = false := by
  simp [State.privileged, hel]

theorem State.privileged_at_el3 (hel : s.el = .el3) : s.privileged options i = true := by
  simp [State.privileged, hel]

variable (hu : ¬ (s.cfg.haveUao = true ∧ s.uao = true))
include hu

/-- At EL1 the options decide, unless nested virtualization makes every access privileged (R81). -/
theorem State.privileged_at_el1 (hel : s.el = .el1) : s.privileged options i = true ↔
    (s.cfg.el2Enabled = true ∧ s.cfg.haveNv = true ∧ s.hcr.nv = true ∧ s.hcr.nv1 = true) ∨ options[i.val] = false := by
  simp [State.privileged, hu, hel, and_assoc]

/-- At EL2 every access is privileged, unless the host extensions let the options decide (R81). -/
theorem State.privileged_at_el2 (hel : s.el = .el2) : s.privileged options i = true ↔
    ¬ (s.cfg.haveVhe = true ∧ s.hcr.e2h = true ∧ s.hcr.tge = true) ∨ options[i.val] = false := by
  simp [State.privileged, hu, hel, and_assoc, imp_iff_not_or]

end Privilege

/-- Settles O12: the non-temporal bits are those of the options, and the privilege is found level by level. -/
theorem accessAttributesForAnyOptions : Obligations.AccessAttributesForAnyOptions := by
  intro s options
  refine ⟨rfl, rfl, Iff.rfl, Iff.rfl, fun ⟨h, hu⟩ => ?_, fun hu =>
    ⟨fun hel => ⟨State.privileged_at_el0 options 1 hel, State.privileged_at_el0 options 0 hel⟩,
      fun hel => ⟨fun h => ?_, fun h => ?_⟩, fun hel => ⟨fun h => ?_, fun h => ?_⟩,
      fun hel => ⟨State.privileged_at_el3 options 1 hel, State.privileged_at_el3 options 0 hel⟩⟩⟩
  · simp [State.readDesc, State.writeDesc, State.privileged_of_uao h hu]
  · simp [State.readDesc, State.writeDesc, State.privileged_at_el1 options _ hu hel, h]
  · simp [State.readDesc, State.writeDesc, State.privileged_at_el1 options _ hu hel, h]
  · simp [State.readDesc, State.writeDesc, State.privileged_at_el2 options _ hu hel, h]
  · simp [State.readDesc, State.writeDesc, State.privileged_at_el2 options _ hu hel, h]

/-- Settles O13: with options 0000 the privilege is that of the level, and both non-temporal bits are clear. -/
theorem accessAttributesInScope : Obligations.AccessAttributesInScope := by
  intro s
  have hpriv : (s.el != .el0) = decide (s.el ≠ .el0) := by simp [bne, Bool.beq_eq_decide_eq]
  constructor
  · simp [State.readDesc, hpriv]
  · simp [State.writeDesc, hpriv]

end Sys2Proof.Machine
end

section
/-! PROOFS. The ends of an instruction that goes on to a next state: what it records, and what it leaves of the
registers, the flags, pc and memory (R90 to R92, R97, R130 to R135, R144). -/

namespace Sys2Proof.Machine

/-! ### A block that faults -/

theorem BlockFaults.blockStops {t u : State} {src dst : Word} {n : Nat} {racc wacc : AccDesc}
    (h : BlockFaults t u src dst n racc wacc) : BlockStops t src dst n racc wacc (.next u) := by
  rcases h with ⟨f, hf, rfl⟩ | ⟨hr, f, hf, rfl⟩
  · exact .inl ⟨f, hf, rfl⟩
  · exact .inr (.inl ⟨hr, f, hf, rfl⟩)

/-- The fault that a block records, with its size and no matter which of its accesses failed. -/
theorem BlockFaults.fault {t u : State} {src dst : Word} {n : Nat} {racc wacc : AccDesc}
    (h : BlockFaults t u src dst n racc wacc) : ∃ f addr acc, u.fault = some (.memoryFault f addr n acc) := by
  rcases h with ⟨f, _, rfl⟩ | ⟨_, f, _, rfl⟩ <;> exact ⟨_, _, _, rfl⟩

/-- A block that faults leaves the state before it but for the record and the count of accesses (R90). -/
theorem BlockFaults.unchanged {t u : State} {src dst : Word} {n : Nat} {racc wacc : AccDesc}
    (h : BlockFaults t u src dst n racc wacc) : u.x = t.x ∧ u.mem = t.mem ∧ u.flags = t.flags ∧ u.pc = t.pc := by
  rcases h with ⟨f, _, rfl⟩ | ⟨_, f, _, rfl⟩ <;> exact ⟨rfl, rfl, rfl, rfl⟩

theorem BlockFaults.readX {t u : State} {src dst : Word} {n : Nat} {racc wacc : AccDesc}
    (h : BlockFaults t u src dst n racc wacc) (j : RegNum) : u.readX j = t.readX j := by
  obtain ⟨hx, _⟩ := h.unchanged
  rw [State.readX, hx, State.readX]

/-! ### The ends with a next state -/

/-- How an instruction comes from `s` to a next state `t`: a check ends it, it is a no-operation, a test of its
parameters raises, its blocks are all moved, or one of its blocks faults. -/
inductive ExecEnd (i : Instr) (s t : State) : Prop where
  | undefined (c : UndefCase) (hc : checksOf i s = .undef c) (ht : t = s.raise (.undefined c))
  | nop (hc : checksOf i s = .nop) (ht : t = s.complete)
  | mismatch (r : CopyRegs) (hc : checksOf i s = .run r) (hm : Mismatches i s r (.next t))
  | done (r : CopyRegs) (bs : List Nat) (hc : checksOf i s = .run r) (htests : testsPass i s r)
      (hbs : blocksOf s.cfg.blockLimit (stageBytes i s r) bs) (ht : t = stageDone i s r bs)
  | memoryFault (r : CopyRegs) (bs : List Nat) (n : Nat) (hc : checksOf i s = .run r) (htests : testsPass i s r)
      (hbs : blocksOf s.cfg.blockLimit bs.sum bs) (h1 : 1 ≤ n) (hlimit : n ≤ s.cfg.blockLimit)
      (hle : bs.sum + n ≤ stageBytes i s r)
      (hfault : BlockFaults (duringStage i s r bs) t (stageSource i s r + BitVec.ofNat 64 bs.sum)
        (stageDest i s r + BitVec.ofNat 64 bs.sum) n (s.readDesc (optionsOf i)) (s.writeDesc (optionsOf i)))

/-- An instruction is refused where the destination of its stage meets the text, or has a next state. -/
theorem exec_ends (i : Instr) (s : State) :
    (exec i s = .refused .destinationInProgramText ∧ ∃ r, checksOf i s = .run r ∧ testsPass i s r ∧
      ¬ s.clearOfText (stageDest i s r) (stageBytes i s r))
    ∨ ∃ t, exec i s = .next t ∧ ExecEnd i s t := by
  obtain ⟨c, hc, he⟩ | ⟨hc, he⟩ | ⟨r, hc, hm | ⟨htests, bs, hbs, ⟨hsum, he⟩ | ⟨n, h1, hlimit, hle, hstop⟩⟩⟩ :=
    exec_cases i s
  · exact .inr ⟨_, he, .undefined c hc rfl⟩
  · exact .inr ⟨_, he, .nop hc rfl⟩
  · have hnext : ∃ t, exec i s = .next t := by
      cases i with
      | cpyfp => exact hm.elim
      | cpyfm | cpyfe => obtain ⟨w, he, _⟩ := hm; exact ⟨_, he⟩
    obtain ⟨t, he⟩ := hnext
    exact .inr ⟨t, he, .mismatch r hc (he ▸ hm)⟩
  · exact .inr ⟨_, he, .done r bs hc htests ⟨hbs, hsum⟩ rfl⟩
  · obtain ⟨he, hmeets⟩ | ⟨t, he, hfault⟩ := hstop.outcome
    · rw [duringStage_text] at hmeets
      exact .inl ⟨he, r, hc, htests, not_clearOfText_of_meets hle hmeets⟩
    · exact .inr ⟨t, he, .memoryFault r bs n hc htests ⟨hbs, rfl⟩ h1 hlimit hle hfault⟩

theorem exec_next_end {i : Instr} {s t : State} (h : exec i s = .next t) : ExecEnd i s t := by
  obtain ⟨he, _⟩ | ⟨t', he, hend⟩ := exec_ends i s <;> rw [h] at he <;> cases he
  exact hend

/-- Where an instruction completes and its Operation ran, its tests passed and its blocks are all moved. -/
theorem exec_completed {i : Instr} {s t : State} {r : CopyRegs} (hc : checksOf i s = .run r)
    (h : exec i s = .next t) (hf : t.fault = none) :
    testsPass i s r ∧ ∃ bs, blocksOf s.cfg.blockLimit (stageBytes i s r) bs ∧ t = stageDone i s r bs := by
  cases exec_next_end h with
  | undefined c hc' ht => rw [hc] at hc'; cases hc'
  | nop hc' ht => rw [hc] at hc'; cases hc'
  | mismatch r' hc' hm => obtain ⟨m, rfl⟩ := hm.next_eq_raise; cases hf
  | done r' bs hc' htests hbs ht =>
    rw [hc] at hc'
    cases hc'
    exact ⟨htests, bs, hbs, ht⟩
  | memoryFault r' bs n _ _ _ _ _ _ hfault =>
    obtain ⟨f, addr, acc, hrec⟩ := hfault.fault
    rw [hf] at hrec
    cases hrec

/-- Where an instruction records a MemoryFault, one of its blocks inside its stage faulted. -/
theorem exec_memoryFault {i : Instr} {s t : State} {f : FaultInfo} {addr : Word} {n : Nat} {acc : AccDesc}
    (h : exec i s = .next t) (hs : s.fault = none) (hf : t.fault = some (.memoryFault f addr n acc)) :
    ∃ r bs, checksOf i s = .run r ∧ blocksOf s.cfg.blockLimit bs.sum bs ∧ 1 ≤ n ∧ n ≤ s.cfg.blockLimit ∧
      bs.sum + n ≤ stageBytes i s r ∧
      BlockFaults (duringStage i s r bs) t (stageSource i s r + BitVec.ofNat 64 bs.sum)
        (stageDest i s r + BitVec.ofNat 64 bs.sum) n (s.readDesc (optionsOf i)) (s.writeDesc (optionsOf i)) := by
  cases exec_next_end h with
  | undefined c hc ht => subst ht; cases hf
  | nop hc ht => subst ht; rw [State.complete_fault, hs] at hf; cases hf
  | mismatch r hc hm => obtain ⟨m, rfl⟩ := hm.next_eq_raise; cases hf
  | done r bs hc htests hbs ht => subst ht; rw [stageDone_fault, hs] at hf; cases hf
  | memoryFault r bs n' hc htests hbs h1 hlimit hle hfault =>
    obtain ⟨f', addr', acc', hrec⟩ := hfault.fault
    rw [hf] at hrec
    cases hrec
    exact ⟨r, bs, hc, hbs, h1, hlimit, hle, hfault⟩

/-! ### Faults recorded, pc and flags -/

/-- Settles O36: each end of `exec_ends`; a block that faults shows that the bytes cannot be copied. -/
theorem outcomesOfEachInstruction : Obligations.OutcomesOfEachInstruction := by
  intro i s hs
  obtain href | ⟨t, he, hend⟩ := exec_ends i s
  · exact .inl href
  · refine .inr ⟨t, he, ?_⟩
    cases hend with
    | undefined c hc ht => exact .inr (.inl ⟨c, by rw [ht, State.raise_fault], hc⟩)
    | nop hc ht => exact .inl ⟨by rw [ht, State.complete_fault, hs], .inl hc⟩
    | mismatch r hc hm =>
      refine .inr (.inr (.inr ⟨r, ?_⟩))
      cases i with
      | cpyfp => exact hm.elim
      | cpyfm =>
        obtain ⟨w, ht, htest⟩ := hm
        cases ht
        exact ⟨w, hc, .inl ⟨_, _, _, _, _, rfl, rfl, by rintro rfl; exact htest, by rintro rfl; exact htest⟩⟩
      | cpyfe =>
        obtain ⟨w, ht, htest⟩ := hm
        cases ht
        exact ⟨w, hc, .inr ⟨_, _, _, _, _, rfl, rfl, by rintro rfl; exact htest, by rintro rfl; exact htest⟩⟩
    | done r bs hc htests hbs ht => exact .inl ⟨by rw [ht, stageDone_fault, hs], .inr ⟨r, hc, htests⟩⟩
    | memoryFault r bs n hc htests hbs h1 hlimit hle hfault =>
      obtain ⟨f, addr, acc, hrec⟩ := hfault.fault
      refine .inr (.inr (.inl ⟨r, f, addr, n, acc, hrec, hc, htests, fun hcan => ?_⟩))
      exact not_blockStops_of_canCopy hcan hbs.1 h1 hlimit hle (by simp) (by simp) (by simp) (by simp) hfault.blockStops

/-- Settles O37: both are raised in the state in which the instruction began. -/
theorem undefinedAndMismatchArePrecise : Obligations.UndefinedAndMismatchArePrecise := by
  intro i s t f h hs hf hkind
  cases exec_next_end h with
  | undefined c hc ht => subst ht; cases hf; rfl
  | nop hc ht => rw [ht, State.complete_fault, hs] at hf; cases hf
  | mismatch r hc hm => obtain ⟨m, rfl⟩ := hm.next_eq_raise; cases hf; rfl
  | done r bs hc htests hbs ht => rw [ht, stageDone_fault, hs] at hf; cases hf
  | memoryFault r bs n hc htests hbs h1 hlimit hle hfault =>
    obtain ⟨f', addr, acc, hrec⟩ := hfault.fault
    rw [hf] at hrec
    cases hrec
    obtain ⟨c, hk⟩ | ⟨m, hk⟩ := hkind <;> cases hk

/-- Settles O38: completing advances pc, and no block and no raise writes it. -/
theorem programCounterRule : Obligations.ProgramCounterRule := by
  intro i s t h hs
  cases exec_next_end h with
  | undefined c hc ht => subst ht; exact ⟨nofun, fun _ => rfl⟩
  | nop hc ht => subst ht; exact ⟨fun _ => rfl, fun hf => absurd hs hf⟩
  | mismatch r hc hm => obtain ⟨m, rfl⟩ := hm.next_eq_raise; exact ⟨nofun, fun _ => rfl⟩
  | done r bs hc htests hbs ht =>
    subst ht
    exact ⟨fun _ => stageDone_pc .., fun hf => absurd (by rw [stageDone_fault, hs]) hf⟩
  | memoryFault r bs n hc htests hbs h1 hlimit hle hfault =>
    obtain ⟨f, addr, acc, hrec⟩ := hfault.fault
    obtain ⟨_, _, _, hpc⟩ := hfault.unchanged
    exact ⟨fun hf => absurd (hrec.symm.trans hf) nofun, fun _ => by rw [hpc, duringStage_pc]⟩

/-- An instruction is CPYFP. -/
def isPrologue : Instr → Bool
  | .cpyfp _ _ _ _ _ => true
  | .cpyfm _ _ _ _ _ => false
  | .cpyfe _ _ _ _ _ => false

theorem stageDone_flags (i : Instr) (s : State) (r : CopyRegs) (bs : List Nat) :
    (stageDone i s r bs).flags = if isPrologue i then Flags.ofOption s.now.optionA else s.flags := by
  cases i <;> simp [stageDone, isPrologue]

/-- Only a CPYFP whose Operation runs and completes writes the flags (R91). -/
theorem exec_flags {i : Instr} {s t : State} (h : exec i s = .next t)
    (hi : isPrologue i = false ∨ (∀ r, checksOf i s ≠ .run r) ∨ (s.fault = none ∧ t.fault ≠ none)) :
    t.flags = s.flags := by
  cases exec_next_end h with
  | undefined c hc ht => subst ht; rfl
  | nop hc ht => subst ht; rfl
  | mismatch r hc hm => obtain ⟨m, rfl⟩ := hm.next_eq_raise; rfl
  | done r bs hc htests hbs ht =>
    subst ht
    rw [stageDone_fault] at hi
    obtain hi | hrun | ⟨hs, hf⟩ := hi
    · simp [stageDone_flags, hi]
    · exact absurd hc (hrun r)
    · exact absurd hs hf
  | memoryFault r bs n hc htests hbs h1 hlimit hle hfault =>
    obtain ⟨_, _, hflags, _⟩ := hfault.unchanged
    rw [hflags, duringStage_flags]

/-- The flags that CPYFP writes, one by one. -/
theorem ofOption_eq (optA : Bool) : Flags.ofOption optA = ⟨false, false, !optA, false⟩ := by
  cases optA <;> decide

theorem ofOption_nzcv (optA : Bool) : (Flags.ofOption optA).nzcv = if optA then 0b0000#4 else 0b0010#4 := by
  cases optA <;> decide

/-- Settles O39: the flags of CPYFP are those of its completed stage, and no other end writes them. -/
theorem flagRule : Obligations.FlagRule := by
  intro s t sz op2 rs rn rd hs
  refine ⟨fun h => ⟨fun r hc hf => ?_, fun hr => exec_flags h (.inr (hr.imp_right (⟨hs, ·⟩)))⟩,
    fun h => exec_flags h (.inl rfl), fun h => exec_flags h (.inl rfl)⟩
  obtain ⟨_, bs, _, rfl⟩ := exec_completed (i := .cpyfp sz op2 rs rn rd) hc h hf
  rw [stageDone_flags]
  exact ofOption_nzcv _

end Sys2Proof.Machine
end

section
/-! PROOFS. The frame of each instruction, what its MemoryFault leaves, and the mismatches of CPYFM and CPYFE (R84 to
R86, R90, R91, R132, R133). -/

namespace Sys2Proof.Machine

/-! ### Registers -/

/-- Register `j` is none of the registers that an instruction writes: CPYFM and CPYFE under option A write X[n] only
(R84 to R88). -/
def keepsRegister (i : Instr) (s : State) (r : CopyRegs) (j : RegNum) : Prop :=
  j ≠ r.n ∧ ((isPrologue i = false ∧ s.now.optionA = true) ∨ (j ≠ r.d ∧ j ≠ r.s))

theorem duringStage_readX {i : Instr} {s : State} {r : CopyRegs} {j : RegNum} (h : keepsRegister i s r j)
    (bs : List Nat) : (duringStage i s r bs).readX j = s.readX j := by
  obtain ⟨hn, hds⟩ := h
  cases i with
  | cpyfp => rfl
  | cpyfm | cpyfe => exact afterBlocks_readX s r bs hn (hds.imp_left And.right)

theorem stageDone_readX {i : Instr} {s : State} {r : CopyRegs} {j : RegNum} (h : keepsRegister i s r j)
    (bs : List Nat) : (stageDone i s r bs).readX j = s.readX j := by
  obtain ⟨hn, hds⟩ := h
  cases i with
  | cpyfp =>
    obtain ⟨hd, hs⟩ : j ≠ r.d ∧ j ≠ r.s := by simpa [isPrologue] using hds
    simp [stageDone, State.readX_writeX, hn, hd, hs]
  | cpyfm | cpyfe => exact afterBlocks_readX s r bs hn (hds.imp_left And.right)

/-- However an instruction ends, it leaves the registers that it does not write. -/
theorem exec_readX {i : Instr} {s t : State} {j : RegNum} (h : exec i s = .next t)
    (hj : ∀ r, checksOf i s = .run r → keepsRegister i s r j) : t.readX j = s.readX j := by
  cases exec_next_end h with
  | undefined c hc ht => subst ht; rfl
  | nop hc ht => subst ht; rfl
  | mismatch r hc hm => obtain ⟨m, rfl⟩ := hm.next_eq_raise; rfl
  | done r bs hc htests hbs ht => rw [ht, stageDone_readX (hj r hc)]
  | memoryFault r bs n hc htests hbs h1 hlimit hle hfault => rw [hfault.readX, duringStage_readX (hj r hc)]

/-! ### Memory -/

/-- However an instruction ends, it leaves the bytes outside the destination of its stage. -/
theorem exec_byte_outside {i : Instr} {s t : State} {r : CopyRegs} {a : Word} (h : exec i s = .next t)
    (hc : checksOf i s = .run r) (ha : outside (stageDest i s r) (stageBytes i s r) a) : t.byte a = s.byte a := by
  have hkept : ∀ bs : List Nat, bs.sum ≤ stageBytes i s r →
      (moveBlocks s.mem (stageSource i s r) (stageDest i s r) bs).read a.toNat = s.mem.read a.toNat := fun bs hle =>
    moveBlocks_outside (outside_iff.mp fun j hj => ha j (by omega))
  cases exec_next_end h with
  | undefined c _ ht => subst ht; rfl
  | nop _ ht => subst ht; rfl
  | mismatch r' _ hm => obtain ⟨m, rfl⟩ := hm.next_eq_raise; rfl
  | done r' bs hc' htests hbs ht =>
    rw [hc] at hc'
    cases hc'
    rw [State.byte, ht, stageDone_mem, hkept bs hbs.2.le, State.byte]
  | memoryFault r' bs n hc' htests hbs h1 hlimit hle hfault =>
    rw [hc] at hc'
    cases hc'
    obtain ⟨_, hmem, _, _⟩ := hfault.unchanged
    rw [State.byte, hmem, duringStage_mem, hkept bs (by omega), State.byte]

/-- An instruction whose Operation does not run leaves memory, registers and flags. -/
theorem exec_of_no_run {i : Instr} {s t : State} (h : exec i s = .next t) (hr : ∀ r, checksOf i s ≠ .run r) :
    t.mem = s.mem ∧ t.x = s.x ∧ t.flags = s.flags := by
  cases exec_next_end h with
  | undefined c hc ht => subst ht; exact ⟨rfl, rfl, rfl⟩
  | nop hc ht => subst ht; exact ⟨rfl, rfl, rfl⟩
  | mismatch r hc _ => exact absurd hc (hr r)
  | done r bs hc _ _ _ => exact absurd hc (hr r)
  | memoryFault r bs n hc _ _ _ _ _ _ => exact absurd hc (hr r)

/-! ### The frames -/

/-- The registers that the checks yield are those of the fields, and are three. -/
theorem checks_registers {s : State} {sz : BitVec 2} {rs rn rd : BitVec 5} {r : CopyRegs}
    (h : checks s sz rs rn rd = .run r) :
    (r.d.val = rd.toNat ∧ r.s.val = rs.toNat ∧ r.n.val = rn.toNat) ∧ r.s ≠ r.n ∧ r.s ≠ r.d ∧ r.n ≠ r.d := by
  obtain ⟨_, _, _, hregs⟩ := checks_eq_run_iff.mp h
  obtain ⟨hd, hs, hn, hne⟩ := copyRegs?_eq_some_iff.mp hregs
  exact ⟨⟨hd, hs, hn⟩, hne⟩

/-- Settles O26: the general frame of an instruction, for CPYFP. -/
theorem cpyfpFrame : Obligations.CpyfpFrame := by
  intro sz op2 rs rn rd s t h
  refine ⟨fun j hjd hjs hjn => exec_readX h fun r hc => ?_, exec_sameControl h,
    fun r hc a ha => exec_byte_outside h hc ha, exec_of_no_run h⟩
  obtain ⟨⟨hd, hs, hn⟩, _⟩ := checks_registers hc
  exact ⟨fun e => hjn (e ▸ hn), .inr ⟨fun e => hjd (e ▸ hd), fun e => hjs (e ▸ hs)⟩⟩

/-- Settles O34: the general frame of an instruction, for CPYFM and CPYFE. -/
theorem mainAndEpilogueFrame : Obligations.MainAndEpilogueFrame := by
  intro sz op2 rs rn rd s t i hi h
  have hmain : isPrologue i = false := by obtain rfl | rfl := hi <;> rfl
  have hchecks : checksOf i s = checks s sz rs rn rd := by obtain rfl | rfl := hi <;> rfl
  refine ⟨exec_flags h (.inl hmain), fun j hjd hjs hjn => exec_readX h fun r hc => ?_,
    fun ho j hjn => exec_readX h fun r hc => ?_, exec_sameControl h, fun r hc => ⟨?_, ?_⟩, fun hr => ?_⟩
  · obtain ⟨⟨hd, hs, hn⟩, _⟩ := checks_registers (hchecks ▸ hc)
    exact ⟨fun e => hjn (e ▸ hn), .inr ⟨fun e => hjd (e ▸ hd), fun e => hjs (e ▸ hs)⟩⟩
  · obtain ⟨⟨_, _, hn⟩, _⟩ := checks_registers (hchecks ▸ hc)
    exact ⟨fun e => hjn (e ▸ hn), .inl ⟨hmain, ho⟩⟩
  · rintro rfl a ha
    exact exec_byte_outside h hc ha
  · rintro rfl a ha
    exact exec_byte_outside h hc ha
  · obtain ⟨hmem, hx, _⟩ := exec_of_no_run h (by rwa [hchecks])
    exact ⟨hmem, hx⟩

/-! ### What a MemoryFault leaves -/

/-- Settles O27: the general MemoryFault of an instruction, for CPYFP. -/
theorem cpyfpMemoryFault : Obligations.CpyfpMemoryFault := fun _ _ _ _ _ _ _ _ _ _ _ h hs hf =>
  exec_memoryFault h hs hf

/-- Settles O35: the general MemoryFault of an instruction, for CPYFM and CPYFE. -/
theorem mainAndEpilogueMemoryFault : Obligations.MainAndEpilogueMemoryFault := by
  intro sz op2 rs rn rd s t i f addr n acc hi h hs hf
  obtain ⟨r, bs, hc, hbs, h1, hlimit, hle, hfault⟩ := exec_memoryFault h hs hf
  obtain rfl | rfl := hi
  · exact ⟨r, bs, hc, hbs, h1, hlimit, fun _ => hle, nofun, hfault⟩
  · exact ⟨r, bs, hc, hbs, h1, hlimit, nofun, fun _ => hle, hfault⟩

/-! ### Mismatches -/

theorem Flags.wrongOption_iff (f : Flags) (optA : Bool) : f.wrongOption optA = true ↔ f.c = optA := by
  obtain ⟨n, z, c, v⟩ := f
  have : (BitVec.ofBool n ++ BitVec.ofBool z ++ BitVec.ofBool c ++ BitVec.ofBool v)[1] = c := by
    revert n z c v; decide
  simp [Flags.wrongOption, Flags.nzcv, this]

theorem optionMismatch_iff {r : CopyRegs} {s : State} : optionMismatch r s = true ↔
    (s.now.zeroSizeCheck = true ∨ s.readX r.n ≠ 0#64) ∧ s.flags.c = s.now.optionA := by
  simp [optionMismatch, Flags.wrongOption_iff]

theorem optionMismatch_eq_false_iff {r : CopyRegs} {s : State} : optionMismatch r s = false ↔
    (s.now.zeroSizeCheck = false ∧ s.readX r.n = 0#64) ∨ s.flags.c = !s.now.optionA := by
  rw [← Bool.not_eq_true, optionMismatch_iff, not_and_or, Bool.eq_not]
  simp

section Mismatch

variable {sz : BitVec 2} {op2 : BitVec 4} {rs rn rd : BitVec 5} {s : State} {r : CopyRegs}
  (hc : checks s sz rs rn rd = .run r)
include hc

theorem exec_cpyfm_of_run : exec (.cpyfm sz op2 rs rn rd) s = mainStage op2 r s := by
  simp only [exec, execCpyfm, afterChecks, hc]

theorem exec_cpyfe_of_run : exec (.cpyfe sz op2 rs rn rd) s = epilogue op2 r s := by
  simp only [exec, execCpyfe, afterChecks, hc]

theorem exec_cpyfm_of_mismatch (hm : optionMismatch r s = true) :
    exec (.cpyfm sz op2 rs rn rd) s = raiseMismatch op2 r true false s := by
  rw [exec_cpyfm_of_run hc, mainStage, if_pos hm]

theorem exec_cpyfe_of_mismatch (hm : optionMismatch r s = true) :
    exec (.cpyfe sz op2 rs rn rd) s = raiseMismatch op2 r true true s := by
  rw [exec_cpyfe_of_run hc, epilogue, if_pos hm]

theorem exec_cpyfm_of_rejects (hm : optionMismatch r s = false) (hr : mainRejects s r) :
    exec (.cpyfm sz op2 rs rn rd) s = raiseMismatch op2 r false false s := by
  rw [exec_cpyfm_of_run hc, mainStage, if_neg (by simp [hm])]
  exact if_pos hr

theorem exec_cpyfe_of_rejects (hm : optionMismatch r s = false) (hr : epilogueRejects s r) :
    exec (.cpyfe sz op2 rs rn rd) s = raiseMismatch op2 r false true s := by
  rw [exec_cpyfe_of_run hc, epilogue, if_neg (by simp [hm])]
  exact if_pos hr

end Mismatch

/-- Settles O32: the option test comes first in both. -/
theorem wrongOptionRaisesMismatch : Obligations.WrongOptionRaisesMismatch := fun _ _ _ _ _ _ _ hc hz hf =>
  ⟨exec_cpyfm_of_mismatch hc (optionMismatch_iff.mpr ⟨hz, hf⟩),
    exec_cpyfe_of_mismatch hc (optionMismatch_iff.mpr ⟨hz, hf⟩)⟩

/-- Settles O33: the option test passes, and the next test rejects. -/
theorem rejectedParametersRaiseMismatch : Obligations.RejectedParametersRaiseMismatch := by
  intro sz op2 rs rn rd s r hc hpass
  have hm := optionMismatch_eq_false_iff.mpr hpass
  exact ⟨fun h => exec_cpyfm_of_rejects hc hm (illformed_eq_true.mpr h),
    fun h => exec_cpyfe_of_rejects hc hm (h.imp_right illformed_eq_true.mpr)⟩

end Sys2Proof.Machine
end

section
/-! PROOFS. Instructions that complete: where its bytes can be copied an instruction moves all its blocks, and what the
registers hold then (R83 to R86, R96). -/

namespace Sys2Proof.Machine

/-! ### A copy that can be made is made -/

theorem Mismatches.not_testsPass {i : Instr} {s : State} {r : CopyRegs} {o : Host.Outcome State Fault Refusal}
    (h : Mismatches i s r o) : ¬ testsPass i s r := by
  cases i with
  | cpyfp => exact h.elim
  | cpyfm | cpyfe =>
    obtain ⟨w, _, htest⟩ := h
    rintro ⟨hm, hrej⟩
    cases w with
    | true => rw [if_pos rfl, hm] at htest; cases htest
    | false => exact hrej htest.2

/-- Where the checks and tests pass and its bytes can be copied, an instruction moves all its blocks. -/
theorem exec_of_canCopy {i : Instr} {s : State} {r : CopyRegs} (hc : checksOf i s = .run r) (ht : testsPass i s r)
    (hcan : s.canCopy (optionsOf i) (stageSource i s r) (stageDest i s r) (stageBytes i s r)) :
    ∃ bs, blocksOf s.cfg.blockLimit (stageBytes i s r) bs ∧ exec i s = .next (stageDone i s r bs) := by
  obtain hm | ⟨_, bs, hbs, ⟨hsum, he⟩ | ⟨n, h1, hlimit, hle, hstop⟩⟩ := exec_operationEnds hc
  · exact absurd ht hm.not_testsPass
  · exact ⟨bs, ⟨hbs, hsum⟩, he⟩
  · exact absurd hstop (not_blockStops_of_canCopy hcan hbs h1 hlimit hle (by simp) (by simp) (by simp) (by simp))

theorem State.canCopy_zero (s : State) (options : BitVec 4) (src dst : Word) : s.canCopy options src dst 0 :=
  ⟨fun _ _ _ h1 _ hle => by omega, fun _ hi => absurd hi (Nat.not_lt_zero _)⟩

theorem State.canCopy_mono {s : State} {options : BitVec 4} {src dst : Word} {k k' : Nat} (hk : k' ≤ k)
    (h : s.canCopy options src dst k) : s.canCopy options src dst k' := by
  obtain ⟨hadmits, hclear⟩ := h
  exact ⟨fun bs n hbs h1 hlimit hle => hadmits bs n hbs h1 hlimit (hle.trans hk), fun i hi => hclear i (by omega)⟩

theorem blocksOf_zero {limit : Nat} {bs : List Nat} (h : blocksOf limit 0 bs) : bs = [] := by
  obtain ⟨hbs, hsum⟩ := h
  cases bs with
  | nil => rfl
  | cons b bs =>
    obtain ⟨h1, _⟩ := hbs b (by simp)
    simp only [List.sum_cons] at hsum
    omega

/-- An instruction with nothing to copy makes no access (R96). -/
theorem exec_of_stageBytes_zero {i : Instr} {s : State} {r : CopyRegs} (hc : checksOf i s = .run r)
    (ht : testsPass i s r) (h0 : stageBytes i s r = 0) : exec i s = .next (stageDone i s r []) := by
  obtain ⟨bs, hbs, he⟩ := exec_of_canCopy hc ht (h0 ▸ s.canCopy_zero ..)
  obtain rfl := blocksOf_zero (h0 ▸ hbs)
  exact he

/-! ### Sizes in the format of the option -/

/-- The size that stands for `k` bytes in the format of the option (40_memory_copy_forward.md, preamble). -/
def formatted (optA : Bool) (k : Nat) : Word := if optA then 0#64 - BitVec.ofNat 64 k else BitVec.ofNat 64 k

@[simp] theorem formatted_magnitude (optA : Bool) (w : Word) : formatted optA (magnitude optA w) = w := by
  cases optA
  · simp [formatted, magnitude]
  · simp only [formatted, magnitude, if_true, BitVec.ofNat_toNat, BitVec.setWidth_eq]
    exact sub_sub_cancel _ _

theorem magnitude_formatted (optA : Bool) {k : Nat} (h : k < 2 ^ 64) : magnitude optA (formatted optA k) = k := by
  have hk : (BitVec.ofNat 64 k).toNat = k := by rw [BitVec.toNat_ofNat, Nat.mod_eq_of_lt h]
  cases optA
  · exact hk
  · exact (congrArg BitVec.toNat (sub_sub_cancel _ _)).trans hk

theorem ofNat_sub_ofNat {m k : Nat} (h : k ≤ m) :
    BitVec.ofNat 64 (m - k) = BitVec.ofNat 64 m - BitVec.ofNat 64 k := by
  rw [eq_sub_iff_add_eq, ← BitVec.ofNat_add, Nat.sub_add_cancel h]

theorem formatted_true_sub {m k : Nat} (h : k ≤ m) :
    formatted true (m - k) = formatted true m + BitVec.ofNat 64 k := by
  simp only [formatted, if_true, ofNat_sub_ofNat h]
  exact (sub_add _ _ _).symm

theorem formatted_false_sub {m k : Nat} (h : k ≤ m) :
    formatted false (m - k) = formatted false m - BitVec.ofNat 64 k := by
  simp [formatted, ofNat_sub_ofNat h]

theorem readX_eq_formatted_remaining (s : State) (r : CopyRegs) :
    s.readX r.n = formatted s.now.optionA (remaining s r) := (formatted_magnitude ..).symm

/-! ### CPYFP -/

theorem prologueWork_size (optA : Bool) (to_ from_ size : Word) :
    (prologueWork optA to_ from_ size).size = if optA then 0#64 - saturate size else saturate size := by
  cases optA <;> rfl

/-- CPYFP copies at most the saturated size (R84, R89 (P)). -/
theorem prologueBytes_le (s : State) (r : CopyRegs) : prologueBytes s r ≤ (saturate (s.readX r.n)).toNat := by
  unfold prologueBytes
  rw [prologueWork_size]
  have hadm := fun size => exists_preSize_iff.mp ⟨s.now.preSize, Eq.refl (preSize s.now.preSize size)⟩
  cases s.now.optionA with
  | false => exact (preAdmissible_saturated_iff _ _).mp (hadm _)
  | true =>
    obtain ⟨hge, hle⟩ := (preAdmissible_negated_iff _ _).mp (hadm _)
    rw [zero_sub_saturate_toInt] at hge
    simp only [magnitude, if_true, BitVec.toNat_sub, BitVec.toNat_ofNat] at hge hle ⊢
    generalize preSize s.now.preSize (0#64 - saturate (s.readX r.n)) = stg at hge hle ⊢
    have := stg.isLt
    rw [Word.toInt_cases] at hge hle
    split_ifs at hge hle <;> omega

/-- Settles O24: all blocks are moved, and the write-back takes them off the saturated size. -/
theorem cpyfpCompletes : Obligations.CpyfpCompletes := by
  intro sz op2 rs rn rd s r hc hcan
  obtain ⟨bs, hbs, he⟩ := exec_of_canCopy (i := .cpyfp sz op2 rs rn rd) hc trivial hcan
  have hsum : bs.sum = prologueBytes s r := hbs.2
  refine ⟨prologueBytes_le s r, bs, hbs, fun ho => ?_, fun ho => ?_⟩
  · have hn : 0#64 - saturate (s.readX r.n) + BitVec.ofNat 64 bs.sum =
        0#64 - (saturate (s.readX r.n) - BitVec.ofNat 64 (prologueBytes s r)) := hsum ▸ sub_add _ _ _
    simp only [he, stageDone, ho, prologueWork, Work.advance, if_true, hn, ofOption_eq, Bool.not_true]
  · simp only [he, stageDone, ho, prologueWork, Work.advance, Bool.false_eq_true, if_false, hsum, ofOption_eq,
      Bool.not_false]

/-- Settles O25: nothing is chosen to be copied, and the registers are written with the values they hold. -/
theorem cpyfpOfZeroLength : Obligations.CpyfpOfZeroLength := by
  intro sz op2 rs rn rd s r hc hn
  have hsat : saturate 0#64 = 0#64 := by decide
  have h0 : prologueBytes s r = 0 := by
    have := prologueBytes_le s r
    rw [hn, hsat] at this
    exact Nat.le_zero.mp this
  rw [exec_of_stageBytes_zero (i := .cpyfp sz op2 rs rn rd) hc trivial h0]
  have hsame : ∀ j v, s.readX j = v → s.writeX j v = s := fun j v h => h ▸ s.writeX_readX j
  rw [← ofOption_eq]
  cases ho : s.now.optionA <;> simp [stageDone, prologueWork, Work.advance, ho, hn, hsat, hsame r.n _ hn]

/-! ### CPYFM and CPYFE -/

/-- The state after some blocks under option A: X[n] holds what then remains (R87). -/
theorem afterBlocks_of_optionA {s : State} {r : CopyRegs} {bs : List Nat} (ho : s.now.optionA = true)
    (hle : bs.sum ≤ remaining s r) : afterBlocks s r bs =
      (s.withBlocks (nextSource s r) (nextDest s r) bs).writeX r.n
        (0#64 - BitVec.ofNat 64 (remaining s r - bs.sum)) := by
  have hn := readX_eq_formatted_remaining s r
  rw [ho] at hn
  simp only [afterBlocks, ho, if_true]
  rw [hn, ← formatted_true_sub hle]
  rfl

/-- The state after some blocks under option B: X[n] holds what then remains, X[d] and X[s] have advanced (R88). -/
theorem afterBlocks_of_optionB {s : State} {r : CopyRegs} {bs : List Nat} (ho : s.now.optionA = false)
    (hle : bs.sum ≤ remaining s r) : afterBlocks s r bs =
      (((s.withBlocks (nextSource s r) (nextDest s r) bs).writeX r.n
        (BitVec.ofNat 64 (remaining s r - bs.sum))).writeX r.d (s.readX r.d + BitVec.ofNat 64 bs.sum)).writeX r.s
        (s.readX r.s + BitVec.ofNat 64 bs.sum) := by
  have hn := readX_eq_formatted_remaining s r
  rw [ho] at hn
  simp only [afterBlocks, ho, Bool.false_eq_true, if_false]
  rw [hn, ← formatted_false_sub hle]
  rfl

/-- Settles O29: all blocks of the stage are moved, and what then remains is what was left to the epilogue. -/
theorem cpyfmCompletes : Obligations.CpyfmCompletes := by
  intro sz op2 rs rn rd s r hc hm hill hcan
  obtain ⟨hle, _⟩ := leftForEpilogue_le (illformed_eq_false.mp hill).2
  have hrej : ¬ mainRejects s r := (Bool.not_eq_true _).mpr hill
  obtain ⟨bs, hbs, he⟩ := exec_of_canCopy (i := .cpyfm sz op2 rs rn rd) hc ⟨hm, hrej⟩ hcan
  have hsum : bs.sum = remaining s r - leftForEpilogue s r := hbs.2
  have hleft : remaining s r - bs.sum = leftForEpilogue s r := by omega
  refine ⟨hle, bs, hbs, fun ho => ?_, fun ho => ?_⟩ <;> rw [he, stageDone]
  · rw [afterBlocks_of_optionA ho (by omega), hleft]
  · rw [afterBlocks_of_optionB ho (by omega), hleft, hsum]

/-- Settles O30: all that remains is moved. -/
theorem cpyfeCompletes : Obligations.CpyfeCompletes := by
  intro sz op2 rs rn rd s r hc hm hpost hill hcan
  have hrej : ¬ epilogueRejects s r := by simp [epilogueRejects, ← hpost, hill]
  obtain ⟨bs, hbs, he⟩ := exec_of_canCopy (i := .cpyfe sz op2 rs rn rd) hc ⟨hm, hrej⟩ hcan
  have hsum : bs.sum = remaining s r := hbs.2
  have hleft : remaining s r - bs.sum = 0 := by omega
  refine ⟨bs, hbs, fun ho => ?_, fun ho => ?_⟩ <;> rw [he, stageDone]
  · rw [afterBlocks_of_optionA ho hsum.le, hleft, BitVec.sub_zero]
  · rw [afterBlocks_of_optionB ho hsum.le, hleft, hsum]

/-- Settles O31: the stage has no bytes, and no block is written back. -/
theorem mainAndEpilogueOfZeroSize : Obligations.MainAndEpilogueOfZeroSize := by
  intro sz op2 rs rn rd s r hc hn hpass
  have hm : optionMismatch r s = false := optionMismatch_eq_false_iff.mpr (hpass.imp_left (⟨·, hn⟩))
  have hremaining : remaining s r = 0 := magnitude_eq_zero.mpr hn
  have hill : ∀ drawn, drawn = false → illformed s.now.optionA drawn (s.readX r.n) = false := fun drawn hd =>
    illformed_eq_false.mpr ⟨hd, fun _ => by simp [hn]⟩
  refine ⟨fun h => ?_, fun h => ?_⟩
  · have hrej : ¬ mainRejects s r := (Bool.not_eq_true _).mpr (hill _ h)
    rw [exec_of_stageBytes_zero (i := .cpyfm sz op2 rs rn rd) hc ⟨hm, hrej⟩ (by simp [stageBytes, hremaining])]
    simp only [stageDone, afterBlocks_nil]
  · have hrej : ¬ epilogueRejects s r := by simp [epilogueRejects, State.post, hn, ← hn ▸ hill _ h]
    rw [exec_of_stageBytes_zero (i := .cpyfe sz op2 rs rn rd) hc ⟨hm, hrej⟩ hremaining]
    simp only [stageDone, afterBlocks_nil]

end Sys2Proof.Machine
end

section
/-! PROOFS. The register format of a copy in progress (R93): what it says of the next instruction, and that each of the
three establishes or keeps it. -/

namespace Sys2Proof.Machine

/-! ### What the format says -/

/-- Where the address registers of a copy from or to `base` stand, with `rest` of `l` bytes to go (R93). -/
def pointerAt (optA : Bool) (base : Word) (l rest : Nat) : Word :=
  base + BitVec.ofNat 64 (if optA then l else l - rest)

theorem State.inFormat_iff {s : State} {optA : Bool} {r : CopyRegs} {src dst : Word} {l rest : Nat} :
    s.inFormat optA r src dst l rest ↔ s.readX r.n = formatted optA rest ∧
      s.readX r.s = pointerAt optA src l rest ∧ s.readX r.d = pointerAt optA dst l rest := by
  cases optA <;> rfl

/-- The next byte of a copy lies `l - rest` bytes into it, in both options. -/
theorem pointerAt_next {optA : Bool} {l rest : Nat} (hle : rest ≤ l) (base : Word) :
    (if optA then pointerAt optA base l rest + formatted optA rest else pointerAt optA base l rest) =
      base + BitVec.ofNat 64 (l - rest) := by
  cases optA
  · rfl
  · simp only [pointerAt, formatted, if_true, ofNat_sub_ofNat hle, BitVec.add_assoc]
    simp [sub_eq_add_neg]

section InFormat

variable {s : State} {r : CopyRegs} {src dst : Word} {l rest : Nat}
  (h : s.inFormat s.now.optionA r src dst l rest) (hle : rest ≤ l) (hl : l < 2 ^ 63)
include h hle

theorem nextSource_of_inFormat : nextSource s r = src + BitVec.ofNat 64 (l - rest) := by
  obtain ⟨hn, hs, _⟩ := State.inFormat_iff.mp h
  rw [nextSource, hn, hs, pointerAt_next hle]

theorem nextDest_of_inFormat : nextDest s r = dst + BitVec.ofNat 64 (l - rest) := by
  obtain ⟨hn, _, hd⟩ := State.inFormat_iff.mp h
  rw [nextDest, hn, hd, pointerAt_next hle]

include hl

theorem remaining_of_inFormat : remaining s r = rest := by
  obtain ⟨hn, _, _⟩ := State.inFormat_iff.mp h
  rw [remaining, hn, magnitude_formatted _ (by omega)]

/-- A size in the format of option A is not above zero. -/
theorem toInt_le_zero_of_inFormat (ho : s.now.optionA = true) : (s.readX r.n).toInt ≤ 0 := by
  obtain ⟨hn, _, _⟩ := State.inFormat_iff.mp h
  have hrest : (BitVec.ofNat 64 rest).toNat = rest := by rw [BitVec.toNat_ofNat, Nat.mod_eq_of_lt (by omega)]
  rw [hn, ho, formatted, if_pos rfl, toInt_zero_sub (by omega)]
  omega

/-- Moving blocks of CPYFM or CPYFE keeps the format, with their bytes taken off (R93). -/
theorem afterBlocks_inFormat {bs : List Nat} (hne : r.s ≠ r.n ∧ r.s ≠ r.d ∧ r.n ≠ r.d) (hbs : bs.sum ≤ rest) :
    (afterBlocks s r bs).inFormat s.now.optionA r src dst l (rest - bs.sum) := by
  obtain ⟨hsn, hsd, hnd⟩ := hne
  have hrem := remaining_of_inFormat h hle hl
  obtain ⟨_, hs, hd⟩ := State.inFormat_iff.mp h
  cases ho : s.now.optionA with
  | true =>
    rw [afterBlocks_of_optionA ho (by omega), hrem]
    rw [ho] at hs hd
    refine State.inFormat_iff.mpr ⟨?_, ?_, ?_⟩
    · simp [formatted]
    · simpa [State.readX_writeX, hsn, pointerAt] using hs
    · simpa [State.readX_writeX, hnd.symm, pointerAt] using hd
  | false =>
    have hptr : ∀ base, pointerAt false base l rest + BitVec.ofNat 64 bs.sum = pointerAt false base l (rest - bs.sum) :=
      fun base => by
        have e : l - (rest - bs.sum) = l - rest + bs.sum := by omega
        simp [pointerAt, e, BitVec.ofNat_add, BitVec.add_assoc]
    rw [afterBlocks_of_optionB ho (by omega), hrem]
    rw [ho] at hs hd
    refine State.inFormat_iff.mpr ⟨?_, ?_, ?_⟩
    · simp [State.readX_writeX, formatted, hsn.symm, hnd]
    · simp [hs, hptr]
    · simp [State.readX_writeX, hsd.symm, hd, hptr]

end InFormat

/-! ### What establishes and keeps it -/

/-- A completed CPYFP establishes the format, with the bytes that it moved taken off (R84, R93). -/
theorem stageDone_prologue_inFormat (sz : BitVec 2) (op2 : BitVec 4) (rs rn rd : BitVec 5) {s : State} {r : CopyRegs}
    {bs : List Nat} (hne : r.s ≠ r.n ∧ r.s ≠ r.d ∧ r.n ≠ r.d) (hle : bs.sum ≤ (saturate (s.readX r.n)).toNat) :
    (stageDone (.cpyfp sz op2 rs rn rd) s r bs).inFormat s.now.optionA r (s.readX r.s) (s.readX r.d)
      (saturate (s.readX r.n)).toNat ((saturate (s.readX r.n)).toNat - bs.sum) := by
  obtain ⟨hsn, hsd, hnd⟩ := hne
  have hsat : BitVec.ofNat 64 (saturate (s.readX r.n)).toNat = saturate (s.readX r.n) := by simp
  rw [State.inFormat_iff]
  cases ho : s.now.optionA with
  | true =>
    rw [formatted_true_sub hle]
    simp [stageDone, ho, prologueWork, Work.advance, State.readX_writeX, pointerAt, formatted, hsat, hsn.symm, hsd.symm,
      hnd]
  | false =>
    rw [formatted_false_sub hle]
    simp [stageDone, ho, prologueWork, Work.advance, State.readX_writeX, pointerAt, formatted, hsat, hsn.symm, hsd.symm,
      hnd, Nat.sub_sub_self hle]

/-- Settles O46: the blocks of each stage are all moved, and their bytes are taken off. -/
theorem formatsAreEstablishedAndKept : Obligations.FormatsAreEstablishedAndKept := by
  intro sz op2 rs rn rd s t r hc hs hf
  obtain ⟨_, hne⟩ := checks_registers hc
  refine ⟨fun h => ?_, fun src dst l rest hle hl hfmt => ⟨fun h => ?_, fun h => ?_⟩⟩
  · obtain ⟨_, bs, ⟨_, hsum⟩, rfl⟩ := exec_completed (i := .cpyfp sz op2 rs rn rd) hc h hf
    have hsum : bs.sum = prologueBytes s r := hsum
    refine ⟨by simp [stageDone_flags, isPrologue, ofOption_eq], ?_⟩
    rw [← hsum]
    exact stageDone_prologue_inFormat sz op2 rs rn rd hne (hsum ▸ prologueBytes_le s r)
  · obtain ⟨_, bs, ⟨_, hsum⟩, rfl⟩ := exec_completed (i := .cpyfm sz op2 rs rn rd) hc h hf
    obtain ⟨hleft, _⟩ := leftForEpilogue_le (toInt_le_zero_of_inFormat hfmt hle hl)
    rw [stageBytes, remaining_of_inFormat hfmt hle hl] at hsum
    rw [remaining_of_inFormat hfmt hle hl] at hleft
    have hkept := afterBlocks_inFormat (bs := bs) hfmt hle hl hne (by omega)
    rw [hsum, Nat.sub_sub_self hleft] at hkept
    exact ⟨hleft, hkept⟩
  · obtain ⟨_, bs, ⟨_, hsum⟩, rfl⟩ := exec_completed (i := .cpyfe sz op2 rs rn rd) hc h hf
    rw [stageBytes, remaining_of_inFormat hfmt hle hl] at hsum
    have hkept := afterBlocks_inFormat (bs := bs) hfmt hle hl hne (by omega)
    rw [hsum, Nat.sub_self] at hkept
    exact hkept

end Sys2Proof.Machine
end

section
/-! PROOFS. The three instructions one after another (R94): the state after any part of the copy, and that each
instruction carries it on. -/

namespace Sys2Proof.Machine

/-! ### What the control state fixes -/

section SameControl

variable {s t : State} (h : sameControl s t)
include h

theorem sameControl.privileged (options : BitVec 4) (i : Fin 4) : t.privileged options i = s.privileged options i := by
  obtain ⟨hel, huao, hhcr, _, hcfg, _, _⟩ := h
  simp only [State.privileged, hel, huao, hhcr, hcfg]

theorem sameControl.readDesc (options : BitVec 4) : t.readDesc options = s.readDesc options := by
  simp only [State.readDesc, h.privileged]

theorem sameControl.writeDesc (options : BitVec 4) : t.writeDesc options = s.writeDesc options := by
  simp only [State.writeDesc, h.privileged]

theorem sameControl.checks_run {sz : BitVec 2} {rs rn rd : BitVec 5} {r : CopyRegs}
    (hc : checks s sz rs rn rd = .run r) : checks t sz rs rn rd = .run r := by
  obtain ⟨_, _, _, _, hcfg, hmops, _⟩ := h
  rw [checks_eq_run_iff] at hc ⊢
  rwa [hcfg, hmops]

end SameControl

theorem State.now_of_draws {s : State} {d : Draws} {ds : List Draws} (h : s.draws = d :: ds) : s.now = d := by
  rw [State.now, h, List.headD_cons]

@[simp] theorem stageDone_draws (i : Instr) (s : State) (r : CopyRegs) (bs : List Nat) :
    (stageDone i s r bs).draws = s.draws.tail := by
  cases i <;> simp [stageDone]

@[simp] theorem stageDone_performed (i : Instr) (s : State) (r : CopyRegs) (bs : List Nat) :
    (stageDone i s r bs).performed = s.performed + 2 * bs.length := by
  cases i <;> simp [stageDone]

section Main

variable {i : Instr} (hi : isPrologue i = false) (s : State) (r : CopyRegs) (bs : List Nat)
include hi

theorem stageSource_of_main : stageSource i s r = nextSource s r := by
  cases i with
  | cpyfp => cases hi
  | cpyfm | cpyfe => rfl

theorem stageDest_of_main : stageDest i s r = nextDest s r := by
  cases i with
  | cpyfp => cases hi
  | cpyfm | cpyfe => rfl

theorem stageDone_of_main : stageDone i s r bs = (afterBlocks s r bs).complete := by
  cases i with
  | cpyfp => cases hi
  | cpyfm | cpyfe => rfl

end Main

/-! ### A copy in progress -/

/-- `t` has come from `s` by the blocks `bs` of a copy of `l` bytes that CPYFP began in `s` under the option `optA`. -/
structure Progress (s t : State) (optA : Bool) (r : CopyRegs) (l : Nat) (bs : List Nat) : Prop where
  blocks : blocksOf s.cfg.blockLimit bs.sum bs
  within : bs.sum ≤ l
  control : sameControl s t
  fault : t.fault = none
  mem : t.mem = moveBlocks s.mem (s.readX r.s) (s.readX r.d) bs
  performed : t.performed = s.performed + 2 * bs.length
  flags : t.flags = Flags.ofOption optA
  others : ∀ j, j ≠ r.d → j ≠ r.s → j ≠ r.n → t.readX j = s.readX j
  format : t.inFormat optA r (s.readX r.s) (s.readX r.d) l (l - bs.sum)

/-- CPYFP begins the copy of the saturated size. -/
theorem Progress.prologue {sz : BitVec 2} {op2 : BitVec 4} {rs rn rd : BitVec 5} {s : State} {r : CopyRegs}
    {bs : List Nat} (hc : checks s sz rs rn rd = .run r) (hs : s.fault = none)
    (hbs : blocksOf s.cfg.blockLimit (prologueBytes s r) bs) :
    Progress s (stageDone (.cpyfp sz op2 rs rn rd) s r bs) s.now.optionA r (saturate (s.readX r.n)).toNat bs := by
  obtain ⟨hblocks, hsum⟩ := hbs
  have hle : bs.sum ≤ (saturate (s.readX r.n)).toNat := hsum ▸ prologueBytes_le s r
  exact {
    blocks := ⟨hblocks, rfl⟩
    within := hle
    control := sameControl_stageDone ..
    fault := by rw [stageDone_fault, hs]
    mem := stageDone_mem ..
    performed := stageDone_performed ..
    flags := by rw [stageDone_flags]; rfl
    others := fun j hd hs hn => stageDone_readX (i := .cpyfp sz op2 rs rn rd) ⟨hn, .inr ⟨hd, hs⟩⟩ bs
    format := stageDone_prologue_inFormat sz op2 rs rn rd (checks_registers hc).2 hle }

section Progress

variable {s t : State} {r : CopyRegs} {l : Nat} {bs : List Nat} (h : Progress s t t.now.optionA r l bs)
  (hl : l < 2 ^ 63)
include h

theorem Progress.nextSource_eq : nextSource t r = s.readX r.s + BitVec.ofNat 64 bs.sum := by
  rw [nextSource_of_inFormat h.format (Nat.sub_le ..), Nat.sub_sub_self h.within]

theorem Progress.nextDest_eq : nextDest t r = s.readX r.d + BitVec.ofNat 64 bs.sum := by
  rw [nextDest_of_inFormat h.format (Nat.sub_le ..), Nat.sub_sub_self h.within]

/-- What can be copied from the start can be carried on. -/
theorem Progress.canCopy {options : BitVec 4} (hcan : s.canCopy options (s.readX r.s) (s.readX r.d) l) :
    t.canCopy options (nextSource t r) (nextDest t r) (l - bs.sum) := by
  obtain ⟨hadmits, hclear⟩ := hcan
  obtain ⟨hblocks, _⟩ := h.blocks
  have hwithin := h.within
  obtain ⟨_, _, _, htext, hcfg, _, hplat⟩ := h.control
  rw [h.nextSource_eq, h.nextDest_eq]
  refine ⟨fun cs n ⟨hcs, _⟩ h1 hlimit hle => ?_, fun i hi => ?_⟩
  · rw [hcfg] at hcs hlimit
    obtain ⟨hr, hw⟩ := hadmits (bs ++ cs) n
      ⟨fun b hb => (List.mem_append.mp hb).elim (hblocks b) (hcs b), rfl⟩ h1 hlimit (by simp; omega)
    simp only [List.sum_append, BitVec.ofNat_add, ← BitVec.add_assoc] at hr hw
    rw [h.control.readDesc, h.control.writeDesc]
    have hmem : moveBlocks t.mem (s.readX r.s + BitVec.ofNat 64 bs.sum) (s.readX r.d + BitVec.ofNat 64 bs.sum) cs =
        moveBlocks s.mem (s.readX r.s) (s.readX r.d) (bs ++ cs) := by rw [h.mem, moveBlocks_append]
    have hperf : t.performed + 2 * cs.length = s.performed + 2 * (bs ++ cs).length := by
      rw [h.performed, List.length_append]
      omega
    exact ⟨(State.memFault_congr (by simpa using hplat) hmem hperf ..).trans hr,
      (State.memFault_congr (by simpa using hplat) hmem (congrArg (· + 1) hperf) ..).trans hw⟩
  · rw [htext, byteAddr_add]
    exact hclear _ (by omega)

include hl

theorem Progress.remaining_eq : remaining t r = l - bs.sum := remaining_of_inFormat h.format (Nat.sub_le ..) hl

/-- A size in its format, checked against the flags that CPYFP wrote, passes the tests of both instructions. -/
theorem Progress.tests : optionMismatch r t = false ∧
    ∀ drawn, drawn = false → illformed t.now.optionA drawn (t.readX r.n) = false := by
  refine ⟨optionMismatch_eq_false_iff.mpr (.inr (by rw [h.flags, ofOption_eq])), fun drawn hd =>
    illformed_eq_false.mpr ⟨hd, toInt_le_zero_of_inFormat h.format (Nat.sub_le ..) hl⟩⟩

/-- CPYFM and CPYFE carry the copy on by their blocks. -/
theorem Progress.stage {i : Instr} {cs : List Nat} (hi : isPrologue i = false)
    (hne : r.s ≠ r.n ∧ r.s ≠ r.d ∧ r.n ≠ r.d) (hcs : ∀ b ∈ cs, 1 ≤ b ∧ b ≤ t.cfg.blockLimit)
    (hle : cs.sum ≤ l - bs.sum) : Progress s (stageDone i t r cs) t.now.optionA r l (bs ++ cs) := by
  obtain ⟨hblocks, _⟩ := h.blocks
  have hwithin := h.within
  obtain ⟨_, _, _, _, hcfg, _, _⟩ := h.control
  exact {
    blocks := ⟨fun b hb => (List.mem_append.mp hb).elim (hblocks b) (hcfg ▸ hcs b), rfl⟩
    within := by simp; omega
    control := h.control.trans (sameControl_stageDone ..)
    fault := by rw [stageDone_fault, h.fault]
    mem := by
      rw [stageDone_mem, stageSource_of_main hi, stageDest_of_main hi, h.nextSource_eq, h.nextDest_eq, h.mem,
        moveBlocks_append]
    performed := by rw [stageDone_performed, h.performed, List.length_append]; omega
    flags := by rw [stageDone_flags, hi, ← h.flags]; rfl
    others := fun j hd hs hn => (stageDone_readX ⟨hn, .inr ⟨hd, hs⟩⟩ cs).trans (h.others j hd hs hn)
    format := by
      rw [List.sum_append, ← Nat.sub_sub, stageDone_of_main hi]
      exact afterBlocks_inFormat h.format (Nat.sub_le ..) hl hne hle }

end Progress

/-! ### The sequence -/

/-- CPYFM carries a copy on, to what it leaves to the epilogue. -/
theorem Progress.exec_cpyfm {s t : State} {optA : Bool} {r : CopyRegs} {l : Nat} {bs : List Nat} {op2 : BitVec 4}
    {rs rn rd : BitVec 5} (h : Progress s t optA r l bs) (ho : t.now.optionA = optA) (hl : l < 2 ^ 63)
    (hc : checks s 0#2 rs rn rd = .run r) (hcan : s.canCopy op2 (s.readX r.s) (s.readX r.d) l)
    (hdrawn : t.now.illformedM = false) :
    ∃ cs, exec (.cpyfm 0#2 op2 rs rn rd) t = .next (stageDone (.cpyfm 0#2 op2 rs rn rd) t r cs) ∧
      Progress s (stageDone (.cpyfm 0#2 op2 rs rn rd) t r cs) optA r l (bs ++ cs) := by
  subst ho
  obtain ⟨hm, hill⟩ := h.tests hl
  have hrej : ¬ mainRejects t r := (Bool.not_eq_true _).mpr (hill _ hdrawn)
  have hbytes : stageBytes (.cpyfm 0#2 op2 rs rn rd) t r ≤ l - bs.sum := by
    rw [stageBytes, h.remaining_eq hl]
    exact Nat.sub_le ..
  obtain ⟨cs, ⟨hcs, hsum⟩, he⟩ := exec_of_canCopy (i := .cpyfm 0#2 op2 rs rn rd) (h.control.checks_run hc) ⟨hm, hrej⟩
    (State.canCopy_mono hbytes (h.canCopy hcan))
  exact ⟨cs, he, h.stage hl rfl (checks_registers hc).2 hcs (hsum ▸ hbytes)⟩

/-- CPYFE, drawn to accept what it finds, carries a copy to its end. -/
theorem Progress.exec_cpyfe {s t : State} {optA : Bool} {r : CopyRegs} {l : Nat} {bs : List Nat} {op2 : BitVec 4}
    {rs rn rd : BitVec 5} (h : Progress s t optA r l bs) (ho : t.now.optionA = optA) (hl : l < 2 ^ 63)
    (hc : checks s 0#2 rs rn rd = .run r) (hcan : s.canCopy op2 (s.readX r.s) (s.readX r.d) l)
    (hdrawn : t.now.illformedE = false) (hpost : t.now.postSize = t.readX r.n) :
    ∃ cs, exec (.cpyfe 0#2 op2 rs rn rd) t = .next (stageDone (.cpyfe 0#2 op2 rs rn rd) t r cs) ∧
      Progress s (stageDone (.cpyfe 0#2 op2 rs rn rd) t r cs) optA r l (bs ++ cs) ∧ (bs ++ cs).sum = l := by
  subst ho
  obtain ⟨hm, hill⟩ := h.tests hl
  have hrej : ¬ epilogueRejects t r := by
    simp [epilogueRejects, State.post, hpost, postSize_same, hill _ hdrawn]
  have hbytes : stageBytes (.cpyfe 0#2 op2 rs rn rd) t r = l - bs.sum := h.remaining_eq hl
  obtain ⟨cs, ⟨hcs, hsum⟩, he⟩ := exec_of_canCopy (i := .cpyfe 0#2 op2 rs rn rd) (h.control.checks_run hc) ⟨hm, hrej⟩
    (hbytes ▸ h.canCopy hcan)
  rw [hbytes] at hsum
  have hwithin := h.within
  exact ⟨cs, he, h.stage hl rfl (checks_registers hc).2 hcs hsum.le, by rw [List.sum_append]; omega⟩

section Finished

variable {s t : State} {optA : Bool} {r : CopyRegs} {l : Nat} {bs : List Nat} (h : Progress s t optA r l bs)
  (hsum : bs.sum = l)
include h hsum

/-- The registers at the end of a copy, the same in both options (R94). -/
theorem Progress.registers_at_end : t.readX r.d = s.readX r.d + BitVec.ofNat 64 l ∧
    t.readX r.s = s.readX r.s + BitVec.ofNat 64 l ∧ t.readX r.n = 0#64 := by
  obtain ⟨hn, hs, hd⟩ := State.inFormat_iff.mp h.format
  rw [hsum, Nat.sub_self] at hn hs hd
  cases optA <;> exact ⟨hd, hs, hn⟩

theorem Progress.byte_forward (hfwd : copiesForward (s.readX r.s) (s.readX r.d) l) {i : Nat} (hi : i < l) :
    t.byte (s.readX r.d + BitVec.ofNat 64 i) = s.byte (s.readX r.s + BitVec.ofNat 64 i) := by
  subst hsum
  rw [State.byte_add, State.byte_add, h.mem, moveBlocks_forward hfwd hi]

theorem Progress.byte_outside {a : Word} (ha : outside (s.readX r.d) l a) : t.byte a = s.byte a := by
  subst hsum
  rw [State.byte, h.mem, moveBlocks_outside (outside_iff.mp ha), State.byte]

end Finished

/-- Settles O47: CPYFP begins the copy, CPYFM carries it on and CPYFE ends it, each under the option of the first. -/
theorem sequenceCopiesTheWholeSize : Obligations.SequenceCopiesTheWholeSize := by
  intro op2 rs rn rd s r d0 d1 d2 rest hc hs hdraws ho1 ho2 hillM hillE hcan
  have hl := saturate_toNat_lt (s.readX r.n)
  obtain rfl := State.now_of_draws hdraws
  obtain ⟨bs, hbs, he0⟩ := exec_of_canCopy (i := .cpyfp 0#2 op2 rs rn rd) hc trivial
    (State.canCopy_mono (prologueBytes_le s r) hcan)
  have hp1 := Progress.prologue (op2 := op2) hc hs hbs
  generalize hs1 : stageDone (.cpyfp 0#2 op2 rs rn rd) s r bs = s1 at he0 hp1
  have hnow1 : s1.now = d1 := State.now_of_draws (ds := d2 :: rest) (by rw [← hs1, stageDone_draws, hdraws]; rfl)
  have hdraws1 : s1.draws = d1 :: d2 :: rest := by rw [← hs1, stageDone_draws, hdraws]; rfl
  obtain ⟨cs, he1, hp2⟩ := hp1.exec_cpyfm (op2 := op2) (by rw [hnow1, ho1]) hl hc hcan (by rw [hnow1, hillM])
  generalize hs2 : stageDone (.cpyfm 0#2 op2 rs rn rd) s1 r cs = s2 at he1 hp2
  have hnow2 : s2.now = d2 := State.now_of_draws (ds := rest) (by rw [← hs2, stageDone_draws, hdraws1]; rfl)
  refine ⟨s1, s2, he0, he1, fun hpost => ?_⟩
  obtain ⟨ds, he2, hp3, hsum⟩ := hp2.exec_cpyfe (op2 := op2) (by rw [hnow2, ho2]) hl hc hcan (by rw [hnow2, hillE])
    (by rw [hnow2, hpost])
  obtain ⟨hd, hsrc, hn⟩ := hp3.registers_at_end hsum
  simp only [BitVec.ofNat_toNat, BitVec.setWidth_eq] at hd hsrc
  have hpc : (stageDone (.cpyfe 0#2 op2 rs rn rd) s2 r ds).pc = s.pc + 12#64 := by
    rw [stageDone_pc, ← hs2, stageDone_pc, ← hs1, stageDone_pc]
    simp [BitVec.add_assoc]
  exact ⟨_, he2, hp3.fault, hpc, hd, hsrc, hn, hp3.others, hp3.flags.trans (ofOption_eq _), hp3.control,
    fun hfwd _ hi => hp3.byte_forward hsum hfwd hi, fun _ ha => hp3.byte_outside hsum ha⟩

end Sys2Proof.Machine
end

section
/-! PROOFS. The invariant of a run (R22, R82, R132, R133): what every operation keeps of memory, text and pc, and what a
recorded fault says; and that a faulted state has no step (R135). -/

namespace Sys2Proof

/-- Bytes decode to instructions of this hardware only (R66). -/
theorem decode_wf {bytes rest : List Byte} {i : Instr} (h : decode bytes = .ok (i, rest)) : i.wf = true := by
  unfold decode at h
  split at h
  next b0 b1 b2 b3 _ =>
    cases hd : decodeWord (wordOfBytes b0 b1 b2 b3) with
    | error e => rw [hd] at h; cases h
    | ok j =>
      rw [hd] at h
      cases h
      exact (decodeWord_eq_ok_iff.mp hd).1
  next => cases h

end Sys2Proof

namespace Sys2Proof.Machine

/-! ### A faulted state -/

theorem step_of_fault {s : State} {f : Fault} (h : s.fault = some f) : step s = .fault f := by
  rw [step, h]

/-- Settles O8: the step looks at the recorded fault before it fetches. -/
theorem faultedStateHasNoFurtherStep : Obligations.FaultedStateHasNoFurtherStep := fun _ _ => step_of_fault

/-! ### Memory, text and pc -/

/-- The part of the invariant that every operation keeps: all of it but what a recorded fault says. -/
def State.placed (s : State) : Prop := s.mem.wf = true ∧ s.text.ordered = true ∧ s.pc.extractLsb' 0 2 = 0#2

theorem State.inv_iff {s : State} : s.inv = true ↔ s.placed ∧ s.faultOk = true := by
  simp [State.inv, State.placed, and_assoc]

/-- Completing an instruction leaves an aligned pc aligned, also where it wraps (R22). -/
theorem lowTwoBits_add_four {pc : Word} (h : pc.extractLsb' 0 2 = 0#2) : (pc + 4#64).extractLsb' 0 2 = 0#2 := by
  rw [lowTwoBits_eq_zero_iff] at h ⊢
  rw [BitVec.toNat_add, BitVec.toNat_ofNat]
  omega

theorem placed_kept : KeptByOperations State.placed where
  access h := h
  raise _ h := h
  writeX _ _ h := h
  setFlags _ h := h
  complete := fun ⟨hmem, htext, hpc⟩ => ⟨hmem, htext, lowTwoBits_add_four hpc⟩
  write := by
    rintro s t addr acc v hw ⟨hmem, htext, hpc⟩
    obtain ⟨_, rfl⟩ := memWrite_eq_done hw
    exact ⟨Memory.wf_writeBlock addr v hmem, htext, hpc⟩

/-! ### The instruction that a step executes -/

theorem optionsOf_eq_zero_iff {i : Instr} : optionsOf i = 0#4 ↔ i.wf = true := by
  cases i <;> exact beq_iff_eq.symm

/-- The instruction at `pc` has options 0000 (R66). -/
theorem State.nextInstr_options {s : State} {i : Instr} (h : s.nextInstr = .ok i) : optionsOf i = 0#4 := by
  unfold State.nextInstr at h
  split at h
  next => cases h
  next =>
    split at h
    next => cases h
    next hd =>
      cases h
      exact optionsOf_eq_zero_iff.mpr (decode_wf hd)

/-! ### What a recorded fault says -/

theorem State.faultOk_of_fault_none {s : State} (h : s.fault = none) : s.faultOk = true := by
  rw [State.faultOk, h]

/-- A mismatch records the three registers of the copy and the options (R132). -/
theorem Mismatches.record {i : Instr} {s t : State} {r : CopyRegs} (h : Mismatches i s r (.next t)) :
    ∃ w e, t = s.raise (.memCopyMismatch ⟨s.now.optionA, r.d, r.s, r.n, w, e, optionsOf i⟩) := by
  cases i with
  | cpyfp => exact h.elim
  | cpyfm | cpyfe =>
    obtain ⟨w, ht, _⟩ := h
    exact ⟨w, _, Host.Outcome.next.inj ht⟩

/-- The registers of a copy are three, whichever instruction makes it (R67). -/
theorem checksOf_registers_ne {i : Instr} {s : State} {r : CopyRegs} (h : checksOf i s = .run r) :
    r.s ≠ r.n ∧ r.s ≠ r.d ∧ r.n ≠ r.d := by
  cases i <;> exact (checks_registers h).2

theorem Mismatches.faultOk {i : Instr} {s t : State} {r : CopyRegs} (h : Mismatches i s r (.next t))
    (hi : optionsOf i = 0#4) (hc : checksOf i s = .run r) : t.faultOk = true := by
  obtain ⟨hsn, hsd, hnd⟩ := checksOf_registers_ne hc
  obtain ⟨w, e, rfl⟩ := h.record
  simp [State.faultOk, hi, hsn, hsd.symm, hnd.symm]

/-- A block of 1 to N bytes that faults records its size and the descriptor of the access that failed, which is as
R82 gives it (R133). -/
theorem BlockFaults.faultOk {s t u : State} {src dst : Word} {n : Nat}
    (h : BlockFaults t u src dst n (s.readDesc 0#4) (s.writeDesc 0#4)) (hst : sameControl s t) (h1 : 1 ≤ n)
    (hlimit : n ≤ s.cfg.blockLimit) : u.faultOk = true := by
  obtain ⟨hel, _, _, _, hcfg, _, _⟩ := hst
  rcases h with ⟨f, _, rfl⟩ | ⟨_, f, _, rfl⟩
  · simp [State.faultOk, State.readDesc, hel, hcfg, h1, hlimit]
  · simp [State.faultOk, State.writeDesc, hel, hcfg, h1, hlimit]

/-- What an instruction of this hardware records, where no fault is recorded before it, is what a fault may say. -/
theorem exec_faultOk {i : Instr} {s t : State} (h : exec i s = .next t) (hi : optionsOf i = 0#4) (hs : s.fault = none) :
    t.faultOk = true := by
  cases exec_next_end h with
  | undefined c hc ht => subst ht; rfl
  | nop hc ht => exact State.faultOk_of_fault_none (by rw [ht, State.complete_fault, hs])
  | mismatch r hc hm => exact hm.faultOk hi hc
  | done r bs hc htests hbs ht => exact State.faultOk_of_fault_none (by rw [ht, stageDone_fault, hs])
  | memoryFault r bs n hc htests hbs h1 hlimit hle hfault =>
    rw [hi] at hfault
    exact hfault.faultOk (sameControl_duringStage i s r bs) h1 hlimit

/-- Settles O43: every operation keeps memory, text and pc in place, and a decoded instruction records only what a
fault may say. -/
theorem stepKeepsInvariant : Obligations.StepKeepsInvariant := by
  intro s t hs h
  obtain ⟨hplaced, _⟩ := State.inv_iff.mp hs
  obtain ⟨hf, i, hi, hexec⟩ := step_eq_next_iff.mp h
  exact State.inv_iff.mpr ⟨placed_kept.exec hplaced hexec, exec_faultOk hexec (State.nextInstr_options hi) hf⟩

end Sys2Proof.Machine
end

section
/-! PROOFS. The end of a run (R167): what each end says of the state it holds, and where a program of instructions that
each complete ends (R22). -/

namespace Sys2Proof.Machine

/-! ### A step that has no next state -/

/-- No instruction answers a fault: it records the fault in its next state (R135). -/
theorem exec_ne_fault (i : Instr) (s : State) (f : Fault) : exec i s ≠ .fault f := by
  obtain ⟨he, _⟩ | ⟨t, he, _⟩ := exec_ends i s <;> rw [he] <;> nofun

/-- A step answers a fault exactly where that fault is recorded (R135, I21). -/
theorem step_eq_fault_iff {s : State} {f : Fault} : step s = .fault f ↔ s.fault = some f := by
  refine ⟨fun h => ?_, step_of_fault⟩
  unfold step at h
  cases hf : s.fault with
  | some g => rw [hf] at h; cases h; rfl
  | none => cases hi : s.nextInstr <;> simp [hf, hi, exec_ne_fault] at h

theorem fault_none_of_step_refused {s : State} {r : Refusal} (h : step s = .refused r) : s.fault = none := by
  cases hf : s.fault with
  | none => rfl
  | some f => rw [step_of_fault hf] at h; cases h

/-! ### The ends of a run -/

@[simp] theorem State.final_iff {s : State} {e : Word} : s.final e = true ↔ s.pc = e ∧ s.fault = none := by
  simp [State.final]

/-- What the end of a run towards `e` says of the state it holds (R167). -/
def RunEnd.holds (e : Word) : RunEnd → Prop
  | .faulted f t => t.fault = some f
  | .refused r t => step t = .refused r ∧ t.final e = false
  | .final t => t.final e = true
  | .running t => t.fault = none ∧ t.final e = false

/-- A run stops where its state is final, before any step (log entry 29). -/
theorem runTo_of_final {e : Word} {s : State} (h : s.final e = true) (fuel : Nat) : runTo e fuel s = .final s := by
  cases fuel <;> exact if_pos h

/-- A run that is not at its end goes on from the next state of its step. -/
theorem runTo_of_step {e : Word} {s u : State} (h : s.final e = false) (hstep : step s = .next u) (fuel : Nat) :
    runTo e (fuel + 1) s = runTo e fuel u := by simp [runTo, h, hstep]

theorem runTo_of_step_fault {e : Word} {s : State} {f : Fault} (h : s.final e = false) (hstep : step s = .fault f)
    (fuel : Nat) : runTo e (fuel + 1) s = .faulted f s := by simp [runTo, h, hstep]

theorem runTo_of_step_refused {e : Word} {s : State} {r : Refusal} (h : s.final e = false)
    (hstep : step s = .refused r) (fuel : Nat) : runTo e (fuel + 1) s = .refused r s := by simp [runTo, h, hstep]

theorem runTo_holds (e : Word) (fuel : Nat) (s : State) : (runTo e fuel s).holds e := by
  induction fuel generalizing s with
  | zero =>
    cases hfin : s.final e with
    | true => rw [runTo_of_final hfin]; exact hfin
    | false => cases hf : s.fault <;> simp [runTo, RunEnd.holds, hfin, hf]
  | succ fuel ih =>
    cases hfin : s.final e with
    | true => rw [runTo_of_final hfin]; exact hfin
    | false =>
      cases hstep : step s with
      | next t => rw [runTo_of_step hfin hstep]; exact ih t
      | fault f => rw [runTo_of_step_fault hfin hstep]; exact step_eq_fault_iff.mp hstep
      | refused r => rw [runTo_of_step_refused hfin hstep]; exact ⟨hstep, hfin⟩

/-- Settles O54: each end of a run says what `RunEnd.holds` gives for it, and a final state is looked for first. -/
theorem runEndsInItsThreeWays : Obligations.RunEndsInItsThreeWays := by
  intro e fuel s t
  have hend := runTo_holds e fuel s
  refine ⟨fun h => ?_, fun f h => ?_, fun r h => ?_, fun hpc hf => runTo_of_final (State.final_iff.mpr ⟨hpc, hf⟩) fuel⟩
  all_goals rw [h] at hend
  · exact State.final_iff.mp hend
  · exact hend
  · obtain ⟨hstep, hfin⟩ := hend
    exact ⟨fault_none_of_step_refused hstep, hstep, hfin⟩

/-! ### A program whose instructions complete -/

/-- A step that completes its instruction advances pc by 4 (R22). -/
theorem step_pc {s t : State} (h : step s = .next t) (ht : t.fault = none) : t.pc = s.pc + 4#64 := by
  obtain ⟨hf, i, _, hexec⟩ := step_eq_next_iff.mp h
  exact (programCounterRule i s t hexec hf).1 ht

/-- A run that ends with no fault recorded began with none: no step clears a fault. -/
theorem fault_none_of_run {k : Nat} {s t : State} (h : core.run k s = .next t) (ht : t.fault = none) :
    s.fault = none := by
  cases k with
  | zero => cases h; exact ht
  | succ k =>
    obtain ⟨u, hsu, _⟩ := run_succ_eq_next_iff.mp h
    exact (step_eq_next_iff.mp hsu).1

@[simp] theorem programEnd_zero (a : Word) : programEnd a 0 = a := by simp [programEnd]

/-- The end address stays the same when the first instruction is done. -/
theorem programEnd_succ (a : Word) (k : Nat) : programEnd a (k + 1) = programEnd (a + 4#64) k := by
  rw [programEnd, programEnd, Nat.mul_succ, Nat.add_comm, BitVec.ofNat_add, BitVec.add_assoc]

/-- A program that is not empty and does not wrap does not begin at its end address. -/
theorem ne_programEnd_succ (a : Word) {k : Nat} (h : 4 * (k + 1) < 2 ^ 64) : a ≠ programEnd a (k + 1) := by
  intro ha
  have hzero : BitVec.ofNat 64 (4 * (k + 1)) = 0#64 := left_eq_add.mp ha
  rw [← BitVec.toNat_inj, BitVec.toNat_ofNat, BitVec.toNat_ofNat] at hzero
  omega

/-- Settles O55, by induction on the number of instructions: the first is not at the end address, and completes. -/
theorem completedProgramIsFinalAtItsEnd : Obligations.CompletedProgramIsFinalAtItsEnd := by
  intro k s t hk _ hrun ht
  induction k generalizing s with
  | zero => cases hrun; simp [runTo_of_final, ht]
  | succ k ih =>
    obtain ⟨u, hsu, hut⟩ := run_succ_eq_next_iff.mp hrun
    have hu : u.fault = none := fault_none_of_run hut ht
    have hend : programEnd s.pc (k + 1) = programEnd u.pc k := by rw [step_pc hsu hu, programEnd_succ]
    have hfin : s.final (programEnd s.pc (k + 1)) = false :=
      Bool.eq_false_iff.mpr fun h => ne_programEnd_succ s.pc hk (State.final_iff.mp h).1
    rw [runTo_of_step hfin hsu, hend]
    exact ih u (by omega) hu hut

end Sys2Proof.Machine
end
